-- ==== Sys2Proof/Word.lean ====
section
/-! DEFINITION. The widths of a configuration. Every value of the hardware is unsigned, and bit `k` of a word `v`
is `Nat.testBit v k = floor(v / 2^k) mod 2` (R7). No width is fixed in advance: `W` and `N` are parameters
without an upper bound (R5, R6), so a word is a plain natural number, and what bounds it is the configuration it
is used with. Functions on bits stand in `Machine/Gf2.lean`. -/

namespace Sys2Proof

/-- The two widths of a configuration: `w` register bits and `n` input word bits (R5). -/
structure Widths where
  /-- The CRC width `W` in bits. -/
  w : Nat
  /-- The input word width `N` in bits. -/
  n : Nat
  deriving DecidableEq, Repr

end Sys2Proof
end

