-- ==== Sys2Proof/Config.lean ====
section
/-! DEFINITION. The configuration, the generator's only set of control registers (R5, R20 to R22).
The spec leaves no value open that an instruction could produce, so this file holds no free
value; every choice the spec leaves is decided in 92_eei_decisions.md and written into the rules. -/

namespace Sys2Proof

/-- The generation mode, field 7 of the configuration (R5, R22): 0 is `BARE`, 1 is `FULL` (R20). -/
inductive Mode where
  /-- Bare logic: next-state and output expressions only. -/
  | bare
  /-- Full module: the clocked register with reset, enable and output post-processing. -/
  | full
  deriving DecidableEq, Repr

/-- A resolved configuration with its eight fields in the order of their field numbers 0 to 7 (R20). -/
structure Config where
  /-- Field 0, `W`: the CRC width in bits. -/
  w : Nat
  /-- Field 1, `POLY`: bit `k` is the coefficient of `x^k`; the `x^W` term is implicit (R5). -/
  poly : Nat
  /-- Field 2, `N`: the input word width in bits. -/
  n : Nat
  /-- Field 3, `REFIN`: the reflect-input flag. -/
  refin : Bool
  /-- Field 4, `REFOUT`: the reflect-output flag. -/
  refout : Bool
  /-- Field 5, `INIT`: the value loaded into the register at reset. -/
  init : Nat
  /-- Field 6, `XOROUT`: the output XOR mask. -/
  xorout : Nat
  /-- Field 7, `MODE`: the generation mode. -/
  mode : Mode
  deriving DecidableEq, Repr

/-- The widths of a configuration. -/
def Config.widths (c : Config) : Widths := ⟨c.w, c.n⟩

/-- The legal values of the fields (R5, R20): the configurations RESOLVE can return. -/
def Config.Valid (c : Config) : Prop :=
  1 ≤ c.w ∧ c.poly < 2 ^ c.w ∧ 1 ≤ c.n ∧ c.init < 2 ^ c.w ∧ c.xorout < 2 ^ c.w

/-- The eight field names, for error reporting (R20, R200). -/
inductive ConfigField where
  | w | poly | n | refin | refout | init | xorout | mode
  deriving DecidableEq, Repr

end Sys2Proof
end

