-- ==== Sys2Proof/Syntax.lean ====
section
/-! DEFINITION. The syntax: Symbols, terms and vectors (R23 to R27), the operands of the generator
operations (R75), the instructions (R74), the operation words of the three formats (R70 to R73),
and the lines of the assembler (R80, R81). -/

namespace Sys2Proof

/-! ## Symbols, terms and vectors -/

/-- A Symbol names one base signal bit (R23): `S_i` is `state i`, `D_j` is `input j` (R10). -/
inductive Symbol where
  /-- `(STATE, i)`: bit `i` of the register value at the start of the cycle. -/
  | state (i : Nat)
  /-- `(INPUT, j)`: bit `j` of the input word of the cycle. -/
  | input (j : Nat)
  deriving DecidableEq, Repr

/-- An XorTerm in its packed form: one bit per possible Symbol, `STATE_i` at bit `i` and `INPUT_j` at bit
`W + j` (R24). The empty term is 0. -/
abbrev XorTerm := Nat

/-- A StateVector: element `k` is the symbolic value of register position `k` (R25). -/
abbrev StateVector := List XorTerm

/-- An OutTerm: an XorTerm and a constant bit (R27). -/
structure OutTerm where
  /-- The XorTerm `T`. -/
  term : XorTerm
  /-- The constant bit `c`. -/
  const : Bool
  deriving DecidableEq, Repr

/-- An output vector: element `j` describes output bit `j` (R27). -/
abbrev OutVector := List OutTerm

/-- A term as a list of Symbols. The canonical form of a term is such a list without repeats, in the order of
R141 (R140); an operand of CANON may hold repeats and any order. -/
abbrev SymbolList := List Symbol

/-- An OutTerm as a list of Symbols and a constant (R140). -/
structure OutList where
  /-- The Symbols of the term. -/
  syms : SymbolList
  /-- The constant bit, which is not a Symbol and is never cancelled. -/
  const : Bool
  deriving DecidableEq, Repr

/-! ## The caller's tuple -/

/-- One field value as the excluded command-line layer supplies it (R75): it may be no integer, no Boolean and no
mode, and RESOLVE checks that (R100). -/
inductive RawVal where
  | int (v : Int)
  | bool (b : Bool)
  /-- A name, such as `BARE` or `FULL`. -/
  | name (s : String)
  deriving DecidableEq, Repr

/-- `raw`: the tuple of eight field values, with `N` omitted or not (R75, R100). A tuple that lacks any other
field is not a tuple RESOLVE accepts (R104), so it has no value of this type. -/
structure RawTuple where
  w : RawVal
  poly : RawVal
  n : Option RawVal
  refin : RawVal
  refout : RawVal
  init : RawVal
  xorout : RawVal
  mode : RawVal
  deriving DecidableEq, Repr

/-! ## Operands of the generator operations

The operands of `GEN` operations are values, not bit fields of the word (R71, R75). An operand is
either a value given with the operation (a function application, R80) or the value the generator
already holds from an earlier operation (the named results of program P5a in 95_test_vectors.md). -/

/-- Where an operand comes from. -/
inductive Src (α : Type) where
  /-- The value the generator holds. -/
  | held
  /-- A value given with the operation. -/
  | lit (v : α)
  deriving DecidableEq, Repr

/-- An XorTerm operand. -/
inductive TermSrc where
  /-- The packed form (R24). -/
  | packed (v : XorTerm)
  /-- The Symbols written out, as in `{S_2, D_0}` (R10); two equal Symbols cancel. -/
  | syms (l : SymbolList)
  /-- Element `k` of the StateVector the generator holds. -/
  | svAt (k : Nat)
  deriving DecidableEq, Repr

/-- The operand of EVAL: an XorTerm or an OutTerm (R118). -/
inductive EvalSrc where
  | term (t : TermSrc)
  | out (t : TermSrc) (c : Bool)
  /-- Element `j` of the output vector the generator holds. -/
  | ovAt (j : Nat)
  deriving DecidableEq, Repr

/-- The operand of CANON: a list of Symbols, or such a list with a constant (R140). -/
inductive CanonSrc where
  | list (l : SymbolList)
  | out (l : SymbolList) (c : Bool)
  /-- Element `k` of the StateVector the generator holds, as a list without repeats. -/
  | svAt (k : Nat)
  /-- Element `j` of the output vector the generator holds. -/
  | ovAt (j : Nat)
  deriving DecidableEq, Repr

/-! ## Instructions -/

/-- The instructions: one constructor per row of the opcode table (R74). Where R75 lists the operand `Cfg`,
it is the configuration the generator holds, which only RESOLVE writes (R20, R79). -/
inductive Instr where
  /-- RESOLVE(raw), R100. -/
  | resolve (raw : Src RawTuple)
  /-- TERM_XOR(T, U), R110. -/
  | termXor (t u : TermSrc)
  /-- SYM_STEP(Cfg, sv, j), R113; the held `j` is the processing order's next index (R29, R112). -/
  | symStep (sv : Src StateVector) (j : Src Nat)
  /-- UNROLL(Cfg), R114. -/
  | unroll
  /-- OUTMAP(Cfg, sv), R117. -/
  | outmap (sv : Src StateVector)
  /-- CANON(T) or CANON((T, c)), R140. -/
  | canon (t : CanonSrc)
  /-- CHECK_LEN(Cfg, sv, ov), R142, over canonical vectors. -/
  | checkLen (sv : Src (List SymbolList)) (ov : Src (List OutList))
  /-- EMIT_BARE(Cfg, sv, ov), R152, over canonical vectors. -/
  | emitBare (sv : Src (List SymbolList)) (ov : Src (List OutList))
  /-- EMIT_FULL(Cfg, sv), R153, over a canonical vector. -/
  | emitFull (sv : Src (List SymbolList))
  /-- GENERATE(raw), R155. -/
  | generate (raw : Src RawTuple)
  /-- EVAL(T, s, d) or EVAL((T, c), s, d), R118. -/
  | eval (t : EvalSrc) (s d : Nat)
  /-- CYC_RESET, R173; the bits the operation ignores are kept, so that no bit of the word is lost. -/
  | cycReset (en : Bool) (data : Nat)
  /-- CYC_UPDATE, R174. -/
  | cycUpdate (data : Nat)
  /-- CYC_HOLD, R175; `data` is ignored. -/
  | cycHold (data : Nat)
  /-- COMB_EVAL, R177. -/
  | combEval (s d : Nat)
  deriving DecidableEq, Repr

/-- The operation begins a new invocation of the generator: the caller supplies `raw` with it (R179, R203). -/
def Instr.startsRun : Instr → Bool
  | .resolve (.lit _) => true
  | .generate (.lit _) => true
  | _ => false

/-! ## Operation words -/

/-- The three formats (R70). -/
inductive Format where
  /-- A generator operation: 4 bits. -/
  | gen
  /-- One rising edge of `clk` of a full module: `N + 2` bits. -/
  | cyc
  /-- One evaluation of a bare-logic block: `W + N` bits. -/
  | comb
  deriving DecidableEq, Repr

/-- The operand values that come with a `GEN` word (R75). Each operation reads its own and no other; what is not
given is the held value, the empty term or zero. -/
structure GenArgs where
  raw : Src RawTuple := .held
  t : TermSrc := .packed 0
  u : TermSrc := .packed 0
  sv : Src StateVector := .held
  j : Src Nat := .held
  canonOf : CanonSrc := .list []
  csv : Src (List SymbolList) := .held
  cov : Src (List OutList) := .held
  evalOf : EvalSrc := .term (.packed 0)
  s : Nat := 0
  d : Nat := 0
  deriving DecidableEq, Repr

/-- One operation as it is handed to an agent: the format (which agent), the word, and, for a `GEN` word, its
operand values. Bit 0 of the word is its least significant bit. -/
structure OpWord where
  fmt : Format
  word : Nat
  args : GenArgs := {}
  deriving DecidableEq, Repr

/-- What the host may do next (R179): hand an operation to an agent, or read an output of the full module. -/
inductive HostInput where
  | op (x : OpWord)
  /-- Observe the register `state` (R180). -/
  | readState
  /-- Read the CRC on `crc_out` (R179). -/
  | readCrc
  deriving DecidableEq, Repr

/-! ## Assembler lines -/

/-- The fields a `resolve` line gives; each may be missing (R104). -/
structure RawFields where
  w : Option RawVal := none
  poly : Option RawVal := none
  n : Option RawVal := none
  refin : Option RawVal := none
  refout : Option RawVal := none
  init : Option RawVal := none
  xorout : Option RawVal := none
  mode : Option RawVal := none
  deriving DecidableEq, Repr

/-- A term as a line writes it, an element of a vector operand. -/
inductive AsmTerm where
  /-- A set of Symbols, as in the example of R142 (R10). -/
  | set (l : SymbolList)
  /-- A list of Symbols, kept as it is written (R140). -/
  | list (l : SymbolList)
  /-- The packed number (R24). -/
  | packed (v : Nat)
  deriving DecidableEq, Repr

/-- The lines of the assembler (R80) and its pseudo-operations (R81). -/
inductive AsmLine where
  | resolve (f : RawFields)
  | generate
  /-- A generator operation written as a function application (R75, R80), with its vector operands as written. -/
  | apply (op : Nat) (args : GenArgs) (sv : Src (List AsmTerm)) (ov : Src (List (AsmTerm × Bool)))
  | reset
  | resetEn (v : Nat)
  | update (v : Nat)
  | hold
  | holdD (v : Nat)
  | comb (s d : Nat)
  | message (ws : List Nat)
  /-- The bytes of the string, first byte first. -/
  | bytes (bs : List Nat)
  | crc (bs : List Nat)
  | idle (k : Nat)
  deriving DecidableEq, Repr

end Sys2Proof
end

