-- ==== Sys2Proof/WellFormed.lean ====
section
/-! DEFINITION. Which operand values an instruction may carry under the widths of a configuration: the
legal Symbols (R23, R51), terms and vectors over them (R24, R25, R27), words of exactly `W` and `N`
bits (R57, R118). A held operand is always acceptable here. CHECK_LEN takes vectors of any length, since their
length is what it checks (R142, vector V142). -/

namespace Sys2Proof

/-- A legal Symbol under the widths (R23). -/
def Symbol.legal (wd : Widths) : Symbol → Bool
  | .state i => decide (i < wd.w)
  | .input j => decide (j < wd.n)

/-- A packed term has no bit outside the Symbol index space of `W + N` positions (R24, R51). -/
def termLegal (wd : Widths) (t : XorTerm) : Bool := decide (t < 2 ^ (wd.w + wd.n))

/-- A StateVector has exactly `W` elements, each a legal term (R25). -/
def vectorLegal (wd : Widths) (v : StateVector) : Bool :=
  v.length == wd.w && v.all (termLegal wd)

/-- The position of a Symbol in the canonical order (R141). -/
def Symbol.rank (wd : Widths) : Symbol → Nat
  | .state i => i
  | .input j => wd.w + j

/-- Strictly ascending in the canonical order, hence without repeats (R140, R141). -/
def ascending (wd : Widths) : SymbolList → Bool
  | [] => true
  | [_] => true
  | a :: b :: l => decide (a.rank wd < b.rank wd) && ascending wd (b :: l)

/-- A canonical XorTerm: legal Symbols, no repeats, in the order of R141. -/
def canonLegal (wd : Widths) (l : SymbolList) : Bool :=
  l.all (Symbol.legal wd) && ascending wd l

/-- The operand value is acceptable, or it is the held one. -/
def srcLegal {α : Type} (ok : α → Bool) : Src α → Bool
  | .held => true
  | .lit v => ok v

def TermSrc.legal (wd : Widths) : TermSrc → Bool
  | .packed v => termLegal wd v
  | .syms l => l.all (Symbol.legal wd)
  | .svAt k => decide (k < wd.w)

def EvalSrc.legal (wd : Widths) : EvalSrc → Bool
  | .term t => t.legal wd
  | .out t _ => t.legal wd
  | .ovAt j => decide (j < wd.w)

def CanonSrc.legal (wd : Widths) : CanonSrc → Bool
  | .list l => l.all (Symbol.legal wd)
  | .out l _ => l.all (Symbol.legal wd)
  | .svAt k => decide (k < wd.w)
  | .ovAt j => decide (j < wd.w)

/-- A canonical vector of any length: the operand of CHECK_LEN. -/
def canonVectorAny (wd : Widths) (v : List SymbolList) : Bool := v.all (canonLegal wd)

def canonOutAny (wd : Widths) (v : List OutList) : Bool := v.all fun o => canonLegal wd o.syms

/-- A canonical vector of `W` elements: the operand of the Emitter. -/
def canonVector (wd : Widths) (v : List SymbolList) : Bool :=
  v.length == wd.w && canonVectorAny wd v

def canonOutVector (wd : Widths) (v : List OutList) : Bool :=
  v.length == wd.w && canonOutAny wd v

/-- The operands of the instruction are legal under the widths of its agent's configuration. -/
def Instr.wellFormed (wd : Widths) : Instr → Bool
  | .resolve _ => true
  | .termXor t u => t.legal wd && u.legal wd
  | .symStep sv j => srcLegal (vectorLegal wd) sv && srcLegal (fun j => decide (j < wd.n)) j
  | .unroll => true
  | .outmap sv => srcLegal (vectorLegal wd) sv
  | .canon t => t.legal wd
  | .checkLen sv ov => srcLegal (canonVectorAny wd) sv && srcLegal (canonOutAny wd) ov
  | .emitBare sv ov => srcLegal (canonVector wd) sv && srcLegal (canonOutVector wd) ov
  | .emitFull sv => srcLegal (canonVector wd) sv
  | .generate _ => true
  | .eval t s d => t.legal wd && decide (s < 2 ^ wd.w) && decide (d < 2 ^ wd.n)
  | .cycReset _ data => decide (data < 2 ^ wd.n)
  | .cycUpdate data => decide (data < 2 ^ wd.n)
  | .cycHold data => decide (data < 2 ^ wd.n)
  | .combEval s d => decide (s < 2 ^ wd.w) && decide (d < 2 ^ wd.n)

end Sys2Proof
end

