-- ==== Sys2Proof/Decode.lean ====
section
/-! DEFINITION. Decoding an operation word into an instruction, and the encoder (R70 to R78). The format says
which agent the word is for and selects the decoder; the three formats share bit patterns, so a word without its
format means nothing (R70). Decoding is total: a word that spells no operation is rejected by name. -/

namespace Sys2Proof

/-- Why a word spells no operation. -/
inductive DecodeError where
  /-- A reserved `GEN` op code, `0xB` to `0xF` (R77). -/
  | reservedOp (op : Nat)
  /-- The word has a bit above its format's length (R70): it is not truncated (R80). -/
  | wordTooWide (f : Format) (word : Nat)
  deriving DecidableEq, Repr

/-- What decoding answers. -/
inductive Decoded where
  | ok (i : Instr)
  | bad (e : DecodeError)
  deriving DecidableEq, Repr

/-- The length of each format in bits (R70). -/
def formatBits (wd : Widths) : Format → Nat
  | .gen => 4
  | .cyc => wd.n + 2
  | .comb => wd.w + wd.n

/-- The `GEN` op codes (R74), with the operands of R75. -/
def decodeGen (op : Nat) (a : GenArgs) : Decoded :=
  match op with
  | 0x0 => .ok (.resolve a.raw)
  | 0x1 => .ok (.termXor a.t a.u)
  | 0x2 => .ok (.symStep a.sv a.j)
  | 0x3 => .ok .unroll
  | 0x4 => .ok (.outmap a.sv)
  | 0x5 => .ok (.canon a.canonOf)
  | 0x6 => .ok (.checkLen a.csv a.cov)
  | 0x7 => .ok (.emitBare a.csv a.cov)
  | 0x8 => .ok (.emitFull a.csv)
  | 0x9 => .ok (.generate a.raw)
  | 0xA => .ok (.eval a.evalOf a.s a.d)
  | _ => .bad (.reservedOp op)

/-- The fields of a `CYC` word: `data` at bits `N+1:2`, `rst` at bit 1, `en` at bit 0 (R72). -/
def cycData (word : Nat) : Nat := word / 4

def cycRst (word : Nat) : Bool := word.testBit 1

def cycEn (word : Nat) : Bool := word.testBit 0

/-- The `CYC` patterns (R74): `rst` selects first, then `en`. -/
def decodeCyc (word : Nat) : Instr :=
  match cycRst word, cycEn word with
  | true, en => .cycReset en (cycData word)
  | false, true => .cycUpdate (cycData word)
  | false, false => .cycHold (cycData word)

/-- The single `COMB` operation: `s` at bits `W+N-1:N`, `d` at bits `N-1:0` (R73). -/
def decodeComb (wd : Widths) (word : Nat) : Instr :=
  .combEval (word / 2 ^ wd.n) (word % 2 ^ wd.n)

/-- Decode a word of a format under the widths of its agent's configuration. -/
def decode (wd : Widths) (x : OpWord) : Decoded :=
  if x.word < 2 ^ formatBits wd x.fmt then
    match x.fmt with
    | .gen => decodeGen x.word x.args
    | .cyc => .ok (decodeCyc x.word)
    | .comb => .ok (decodeComb wd x.word)
  else .bad (.wordTooWide x.fmt x.word)

/-! ## The encoder -/

/-- Put a `CYC` word together: `word = data * 4 + rst * 2 + en` (R72). -/
def cycWord (rst en : Bool) (data : Nat) : OpWord :=
  ⟨.cyc, data * 4 + rst.toNat * 2 + en.toNat, {}⟩

/-- Put a `COMB` word together: `word = s * 2^N + d` (R73). -/
def combWord (wd : Widths) (s d : Nat) : OpWord := ⟨.comb, s * 2 ^ wd.n + d, {}⟩

/-- The operation word of an instruction. -/
def encode (wd : Widths) : Instr → OpWord
  | .resolve raw => ⟨.gen, 0x0, { raw := raw }⟩
  | .termXor t u => ⟨.gen, 0x1, { t := t, u := u }⟩
  | .symStep sv j => ⟨.gen, 0x2, { sv := sv, j := j }⟩
  | .unroll => ⟨.gen, 0x3, {}⟩
  | .outmap sv => ⟨.gen, 0x4, { sv := sv }⟩
  | .canon t => ⟨.gen, 0x5, { canonOf := t }⟩
  | .checkLen sv ov => ⟨.gen, 0x6, { csv := sv, cov := ov }⟩
  | .emitBare sv ov => ⟨.gen, 0x7, { csv := sv, cov := ov }⟩
  | .emitFull sv => ⟨.gen, 0x8, { csv := sv }⟩
  | .generate raw => ⟨.gen, 0x9, { raw := raw }⟩
  | .eval t s d => ⟨.gen, 0xA, { evalOf := t, s := s, d := d }⟩
  | .cycReset en data => cycWord true en data
  | .cycUpdate data => cycWord false true data
  | .cycHold data => cycWord false false data
  | .combEval s d => combWord wd s d

/-! ## A word of the opcode table, without its agent

The table's rows of different formats share words (`0x0` is RESOLVE, CYC_HOLD and COMB_EVAL), and the table gives a
`GEN` row 4 bits, a `CYC` row its two control bits and the `COMB` row none. DESIGN CHOICE (notes/assumptions/12.md):
a row of no bits is `COMB`; a row of fewer than 4 bits, or a word with a bit above bit 3, is no `GEN` word and is read
as `CYC`; every other word is `GEN`. -/

/-- The format a table word of `nbits` bits is read in. -/
def tableFormat (nbits w : Nat) : Format :=
  if nbits = 0 then .comb else if nbits < 4 ∨ 16 ≤ w then .cyc else .gen

/-- The widths a table word is read under: an 8-bit register, and an input word wide enough for any such word. -/
def tableWidths (nbits : Nat) : Widths := ⟨8, max nbits 8⟩

/-- The table word as an operation word; the operands the word has no bits for are the held ones. -/
def tableOp (nbits w : Nat) : OpWord := ⟨tableFormat nbits w, w, {}⟩

/-- The instruction the decoder reads from a word of the opcode table. -/
def decodeTableWord (nbits w : Nat) : Option Instr :=
  match decode (tableWidths nbits) (tableOp nbits w) with
  | .ok i => some i
  | .bad _ => none

end Sys2Proof
end

