-- ==== Sys2Proof/Machine/Gf2.lean ====
section
/-! DEFINITION. Arithmetic on bits: GF(2) sums, numbers from bits, reflection (R7 to R9), the Symbol index
space (R24, R51) and the value of a term (R118). -/

namespace Sys2Proof.Machine

/-- The GF(2) sum of `f 0, ..., f (n-1)` (R8). -/
def xorBits : Nat → (Nat → Bool) → Bool
  | 0, _ => false
  | n + 1, f => (xorBits n f) ^^ (f n)

/-- The number whose bit `k` is `f k` for `k < n`, and which has no other bit: the sum over `k` of
`f k * 2^k` (R172). -/
def ofBits : Nat → (Nat → Bool) → Nat
  | 0, _ => 0
  | n + 1, f => ofBits n f + (f n).toNat * 2 ^ n

/-- Reflection: bit `j` of `rev w v` is bit `w-1-j` of `v` (R9). -/
def rev (w : Nat) (v : Nat) : Nat := ofBits w fun j => v.testBit (w - 1 - j)

/-- The packed index of a Symbol: `STATE_i` at bit `i`, `INPUT_j` at bit `W + j` (R24). -/
def symIndex (wd : Widths) : Symbol → Nat
  | .state i => i
  | .input j => wd.w + j

/-- The singleton term of a Symbol, packed. -/
def packSym (wd : Widths) (m : Symbol) : XorTerm := 2 ^ symIndex wd m

/-- The packed term of a list of Symbols; equal Symbols cancel (R24, R10). -/
def packSyms (wd : Widths) : SymbolList → XorTerm
  | [] => 0
  | m :: l => packSym wd m ^^^ packSyms wd l

/-- The legal Symbols in the canonical order: every STATE Symbol, then every INPUT Symbol, each ascending (R141). -/
def allSymbols (wd : Widths) : SymbolList :=
  (List.range wd.w).map Symbol.state ++ (List.range wd.n).map Symbol.input

/-- The members of a packed term, in the canonical order. -/
def members (wd : Widths) (t : XorTerm) : SymbolList :=
  (allSymbols wd).filter fun m => t.testBit (symIndex wd m)

/-- TERM_XOR on packed terms: a bitwise XOR (R110). -/
def termXor (t u : XorTerm) : XorTerm := t ^^^ u

/-- EVAL of an XorTerm: the GF(2) sum of the bits its members denote (R118). -/
def evalTerm (wd : Widths) (t : XorTerm) (s d : Nat) : Bool :=
  (xorBits wd.w fun i => t.testBit i && s.testBit i) ^^
  (xorBits wd.n fun j => t.testBit (wd.w + j) && d.testBit j)

/-- EVAL of an OutTerm (R118). -/
def evalOut (wd : Widths) (o : OutTerm) (s d : Nat) : Bool := evalTerm wd o.term s d ^^ o.const

end Sys2Proof.Machine
end

