-- ==== Sys2Proof/Machine/State.lean ====
section
/-! DEFINITION. The state of the two agents (R20 to R35, R230): the generator's registers, the generated circuit
and its one register, and what the host has handed over and not yet been served (R34, R179). Neither agent has a
memory, a program counter, flags or modes (R30, R34, R50), so there is no field for one. All of it is plain data. -/

namespace Sys2Proof.Machine

/-- A `ConfigError` as it is reported: the field number, the field's name, its valid range as text (R200). -/
structure ConfigError where
  code : Nat
  field : String
  range : String
  deriving DecidableEq, Repr

/-- An `InternalInvariantError` as it is reported: the cause code, the two lengths found and `W` (R201). -/
structure LengthError where
  code : Nat
  svLength : Nat
  ovLength : Nat
  w : Nat
  deriving DecidableEq, Repr

/-- The two error kinds of the generator (R200, R201). -/
inductive GenError where
  | config (e : ConfigError)
  | internal (e : LengthError)
  deriving DecidableEq, Repr

/-- The stage register of a generator run (R28). -/
inductive Stage where
  /-- No configuration yet. -/
  | start
  /-- RESOLVE has succeeded. -/
  | configured
  /-- The Emitter has produced the text. -/
  | done
  /-- An error has been raised. -/
  | failed (e : GenError)
  deriving DecidableEq, Repr

/-- Emitted text, character by character. -/
abbrev Text := List Char

/-- The value an operation of the generator returns (R75). -/
inductive Result where
  | config (c : Config)
  | term (t : XorTerm)
  | stateVector (sv : StateVector)
  | outVector (ov : OutVector)
  | canonTerm (l : SymbolList)
  | canonOut (o : OutList)
  | unit
  | text (t : Text)
  | bit (b : Bool)
  | error (e : GenError)
  deriving DecidableEq, Repr

/-- A generated circuit (R2, R34): its configuration and the equations of its text. In a full module `out` is the
post-processing of the register (R153); in bare logic it is the look-ahead output vector (R152). -/
structure Circuit where
  cfg : Config
  /-- The next-state equations `state_out[k]`. -/
  next : StateVector
  /-- The output equations `crc_out[j]`. -/
  out : OutVector
  deriving DecidableEq, Repr

/-- What an observation of a circuit yields (R180). -/
inductive Observation where
  /-- The register of a full module. -/
  | state (v : Nat)
  /-- `crc_out` of a full module. -/
  | crcOut (v : Nat)
  /-- The outputs of a bare-logic block for one `COMB` word. -/
  | bare (stateOut crcOut : Nat)
  deriving DecidableEq, Repr

/-- The reasons the machine stops with a fault. -/
inductive Fault where
  /-- The host read `state` or `crc_out` of a full module whose register holds no value, that is before its first
  CYC_RESET (R32, R176, program P6). Raised by the host's reads only. Safe: the spec says a model faults here. -/
  | readBeforeReset
  deriving DecidableEq, Repr

/-- The reasons the machine gives an operation no meaning. -/
inductive Refusal where
  /-- An instruction without a meaning yet; only arms of `exec` answer it. Safe. -/
  | notModelled (mnemonic : String)
  /-- A word that spells no operation (R77, R70); raised by fetching. Safe: R77 asks for the refusal. -/
  | undecodable (e : DecodeError)
  /-- A literal operand that is not a legal value under the configuration (R23, R25, R57); raised by fetching. Safe. -/
  | illFormedOperand
  /-- A generator operation that takes `Cfg` while the generator holds none (R79, R101); raised by every such
  operation. Safe. -/
  | noConfig
  /-- RESOLVE or GENERATE of the held tuple when the caller has supplied none (R234). Safe. -/
  | noRaw
  /-- The held output vector is wanted before any OUTMAP (R230); raised by operand reading. Safe. -/
  | noOutputVector
  /-- SYM_STEP of the next input bit when all `N` have been consumed (R29). Safe. -/
  | noInputLeft
  /-- EMIT_BARE of a `FULL` configuration or EMIT_FULL of a `BARE` one (R152, R153). Safe. -/
  | wrongMode
  /-- An operation that would end a run which has already ended (R28, R202). Safe. -/
  | runEnded
  /-- A `CYC` word or a read, and there is no full module (R33, R170). Safe. -/
  | noFullModule
  /-- A `COMB` word, and there is no bare-logic block (R170). Safe. -/
  | noBareLogic
  deriving DecidableEq, Repr

/-- The whole machine. -/
structure State where
  /-- What the host hands over, in order; not state of either agent (R34, R179). -/
  pending : List HostInput
  /-- The tuple the caller supplied for the current invocation (R5, R179). -/
  raw : Option RawTuple
  /-- The stage register (R28). -/
  stage : Stage
  /-- The control registers, fields 0 to 7: none until RESOLVE (R20, R230). -/
  cfg : Option Config
  /-- The StateVector of the simulation: none until the simulation starts (R25, R230). -/
  sv : Option StateVector
  /-- The unroll position `p` (R29). -/
  pos : Nat
  /-- The output vector: none until OUTMAP (R27, R230). -/
  ov : Option OutVector
  /-- The value the generator's last operation returned (R30, R75). -/
  result : Option Result
  /-- The emitted text: none unless the run has ended in `DONE` (R28, R202). -/
  text : Option Text
  /-- The circuit the last emitted text describes (R2). -/
  circuit : Option Circuit
  /-- `state` (`state_reg`), the full module's register: none while it holds no value (R31, R32). -/
  stateReg : Option Nat
  /-- The host's last observation of a circuit (R180). -/
  observed : Option Observation
  deriving DecidableEq, Repr

/-- The machine before any invocation and with no circuit: `START`, no configuration, position 0, a register that
holds no value (R230). -/
def State.reset : State where
  pending := []
  raw := none
  stage := .start
  cfg := none
  sv := none
  pos := 0
  ov := none
  result := none
  text := none
  circuit := none
  stateReg := none
  observed := none

end Sys2Proof.Machine
end

