-- ==== Sys2Proof/Machine/Symbolic.lean ====
section
/-! DEFINITION. The core as pure functions: the symbolic step and its unrolling (R111 to R115), the output map
(R117), canonical forms and the length check (R140 to R142), the numeric functions of a configuration (R172), and
the bit-serial reference they are exact against (R119). -/

namespace Sys2Proof.Machine

/-! ## The symbolic simulator -/

/-- The identity StateVector: element `k` is the singleton term of `S_k` (R26). -/
def idVector (w : Nat) : StateVector := (List.range w).map fun k => 2 ^ k

/-- The processing order of the input bits: the last bit first unless reflect-input is set (R112). -/
def procOrder (n : Nat) (refin : Bool) : List Nat :=
  if refin then List.range n else (List.range n).reverse

/-- The feedback: the top element and the input Symbol `D_j` (R111). -/
def feedback (wd : Widths) (sv : StateVector) (j : Nat) : XorTerm :=
  termXor (sv.getD (wd.w - 1) 0) (packSym wd (.input j))

/-- One symbolic step (R113): every element is computed from the old vector. -/
def symStep (c : Config) (sv : StateVector) (j : Nat) : StateVector :=
  (List.range c.w).map fun k =>
    termXor (if 1 ≤ k then sv.getD (k - 1) 0 else 0)
      (if c.poly.testBit k then feedback c.widths sv j else 0)

/-- The fold of the step over a list of input indices (R115). -/
def unrollFrom (c : Config) (sv : StateVector) (js : List Nat) : StateVector :=
  js.foldl (symStep c) sv

/-- The next-state equations of one `N`-bit cycle (R114). -/
def unroll (c : Config) : StateVector :=
  unrollFrom c (idVector c.w) (procOrder c.n c.refin)

/-- The register position output bit `j` is taken from (R55, R117). -/
def outSource (c : Config) (j : Nat) : Nat := if c.refout then c.w - 1 - j else j

/-- The output map (R117): reflection first, then the constant of the output mask. -/
def outmap (c : Config) (sv : StateVector) : OutVector :=
  (List.range c.w).map fun j => ⟨sv.getD (outSource c j) 0, c.xorout.testBit j⟩

/-! ## The canonicalizer -/

/-- The canonical form of a list of Symbols: the legal Symbols that occur an odd number of times, in the canonical
order (R140). -/
def canon (wd : Widths) (l : SymbolList) : SymbolList :=
  (allSymbols wd).filter fun m => l.count m % 2 == 1

/-- The canonical form of an OutTerm keeps its constant (R140). -/
def canonOut (wd : Widths) (o : OutList) : OutList := ⟨canon wd o.syms, o.const⟩

/-- The StateVector with every element in canonical form (R143). -/
def canonVec (wd : Widths) (sv : StateVector) : List SymbolList :=
  sv.map fun t => canon wd (members wd t)

/-- The output vector with every element in canonical form (R143). -/
def canonOutVec (wd : Widths) (ov : OutVector) : List OutList :=
  ov.map fun o => canonOut wd ⟨members wd o.term, o.const⟩

/-- The cause code `LENGTH` of an InternalInvariantError (R201). -/
def lengthCode : Nat := 16

/-- The length check (R142): the error, where either vector has not exactly `W` elements. -/
def lengthCheck (w : Nat) (sv : List SymbolList) (ov : List OutList) : Option LengthError :=
  if sv.length ≠ w ∨ ov.length ≠ w then some ⟨lengthCode, sv.length, ov.length, w⟩ else none

/-! ## The numeric functions -/

/-- The number whose bit `k` is the value of element `k` of a vector of next-state equations (R172). -/
def vectorValue (wd : Widths) (sv : StateVector) (s d : Nat) : Nat :=
  ofBits wd.w fun k => evalTerm wd (sv.getD k 0) s d

/-- The number whose bit `j` is the value of element `j` of an output vector (R172). -/
def outValue (wd : Widths) (ov : OutVector) (s d : Nat) : Nat :=
  ofBits wd.w fun j => evalOut wd (ov.getD j ⟨0, false⟩) s d

/-- `next(s, d)`, the value of the unrolled equations (R172). -/
def next (c : Config) (s d : Nat) : Nat := vectorValue c.widths (unroll c) s d

/-- `post(v)`: reflect if asked, then XOR with the output mask (R117, R172). -/
def post (c : Config) (v : Nat) : Nat := (if c.refout then rev c.w v else v) ^^^ c.xorout

/-- The bit-serial reference step on numbers (R119). -/
def serial1 (c : Config) (s : Nat) (b : Bool) : Nat :=
  (2 * s % 2 ^ c.w) ^^^ (if s.testBit (c.w - 1) ^^ b then c.poly else 0)

/-- The bit-serial reference over one word, in the processing order (R119). -/
def serial (c : Config) (s d : Nat) : Nat :=
  (procOrder c.n c.refin).foldl (fun v j => serial1 c v (d.testBit j)) s

end Sys2Proof.Machine
end

