-- ==== Sys2Proof/Machine/Render.lean ====
section
/-! DEFINITION. The emitted text, character by character (R150 to R154). -/

namespace Sys2Proof.Machine

/-- The decimal digits of a number, with fuel, before the digits already written. -/
def decimalFrom : Nat → Nat → Text → Text
  | 0, _, acc => acc
  | fuel + 1, v, acc =>
    if v < 10 then Nat.digitChar v :: acc
    else decimalFrom fuel (v / 10) (Nat.digitChar (v % 10) :: acc)

/-- A number in decimal without leading zeros (R150). -/
def decimal (v : Nat) : Text := decimalFrom (v + 1) v []

/-- A number in lower-case hexadecimal, zero-padded to exactly `k` digits (R154). -/
def hexadecimal (k : Nat) (v : Nat) : Text :=
  (List.range k).reverse.map fun i => Nat.digitChar (v / 16 ^ i % 16)

/-- A `W`-bit constant: `<W>'h<hex>` with `ceil(W/4)` digits (R154). -/
def literal (w : Nat) (v : Nat) : Text :=
  decimal w ++ "'h".toList ++ hexadecimal ((w + 3) / 4) v

/-- A bus range `[<n-1>:0]` (R154). -/
def busRange (n : Nat) : Text := "[".toList ++ decimal (n - 1) ++ ":0]".toList

/-- The signal name of a Symbol in each mode (R150). -/
def signalName (m : Mode) : Symbol → Text
  | .state i =>
    (match m with
      | .bare => "state_in[".toList
      | .full => "state_reg[".toList) ++ decimal i ++ "]".toList
  | .input j => "data_in[".toList ++ decimal j ++ "]".toList

/-- The items joined by ` ^ ` (R151). -/
def joinXor : List Text → Text
  | [] => []
  | [a] => a
  | a :: l => a ++ " ^ ".toList ++ joinXor l

/-- The items of a term: its signal names, then the constant one where it is set (R151). -/
def renderItems (m : Mode) (l : SymbolList) (c : Bool) : List Text :=
  l.map (signalName m) ++ (if c then ["1'b1".toList] else [])

/-- A term as a parenthesised XOR-reduction, or the constant 0 when there is no item (R151). -/
def render (m : Mode) (l : SymbolList) (c : Bool) : Text :=
  match renderItems m l c with
  | [] => "1'b0".toList
  | items => "(".toList ++ joinXor items ++ ")".toList

/-- One line: the text and a line feed (R154). -/
def line (t : Text) : Text := t ++ ['\n']

/-- The line `assign <signal>[<k>] = <term>;`. -/
def assignLine (m : Mode) (signal : String) (k : Nat) (o : OutList) : Text :=
  line ("assign ".toList ++ signal.toList ++ "[".toList ++ decimal k ++ "] = ".toList ++
    render m o.syms o.const ++ ";".toList)

/-- The `assign` lines of the elements `k, k+1, ...` of a vector, ascending. -/
def assignLines (m : Mode) (signal : String) : Nat → List OutList → Text
  | _, [] => []
  | k, o :: l => assignLine m signal k o ++ assignLines m signal (k + 1) l

/-- Next-state terms carry no constant. -/
def noConst (sv : List SymbolList) : List OutList := sv.map fun l => ⟨l, false⟩

/-- The bare-logic text (R152). -/
def bareText (sv : List SymbolList) (ov : List OutList) : Text :=
  assignLines .bare "state_out" 0 (noConst sv) ++ assignLines .bare "crc_out" 0 ov

/-- The lines of the full module before its equations (R153). -/
def moduleHead (c : Config) : Text :=
  line "module crc (".toList ++
  line "    input  wire clk,".toList ++
  line "    input  wire rst,".toList ++
  line ("    input  wire ".toList ++ busRange c.n ++ " data_in,".toList) ++
  line "    input  wire data_en,".toList ++
  line ("    output wire ".toList ++ busRange c.w ++ " crc_out".toList) ++
  line ");".toList ++
  line ("reg  ".toList ++ busRange c.w ++ " state_reg;".toList) ++
  line ("wire ".toList ++ busRange c.w ++ " state_out;".toList)

/-- The clocked register of the full module (R153). -/
def alwaysBlock (c : Config) : Text :=
  line "always @(posedge clk) begin".toList ++
  line ("    if (rst) state_reg <= ".toList ++ literal c.w c.init ++ ";".toList) ++
  line "    else if (data_en) state_reg <= state_out;".toList ++
  line "end".toList

/-- The post-processing of the register: the output map of the identity vector (R153). -/
def registerOut (c : Config) : OutVector := outmap c (idVector c.w)

/-- The full-module text (R153). -/
def fullText (c : Config) (sv : List SymbolList) : Text :=
  moduleHead c ++ assignLines .full "state_out" 0 (noConst sv) ++ alwaysBlock c ++
  assignLines .full "crc_out" 0 (canonOutVec c.widths (registerOut c)) ++
  line "endmodule".toList

end Sys2Proof.Machine
end

