-- ==== Sys2Proof/Machine/Ops.lean ====
section
/-! DEFINITION. The named operations on the state that the meanings share: starting a run, raising an error
(R202), ending a run with its text (R28, R155), writing one register, and the answers a meaning can give. -/

namespace Sys2Proof.Machine

/-- What a step or a meaning answers. -/
abbrev Answer := Host.Outcome State Fault Refusal

/-! ## The generator's registers -/

/-- The start of a generator run with the caller's tuple: every generator register at its value before the run
(R230), nothing kept of an earlier run (R203). The circuit is another agent and is untouched (R210). -/
def State.startRun (s : State) (raw : RawTuple) : State :=
  { s with
    raw := some raw
    stage := .start
    cfg := none
    sv := none
    pos := 0
    ov := none
    result := none
    text := none }

/-- RESOLVE has succeeded: the configuration is written, once (R20, R28). -/
def State.configure (s : State) (c : Config) : State :=
  { s with stage := .configured, cfg := some c, result := some (.config c) }

/-- Error entry: the run ends at once, returns the error, and there is no text (R202). Nothing is saved, there is
no handler and no vector. -/
def State.raise (s : State) (e : GenError) : State :=
  { s with stage := .failed e, result := some (.error e), text := none }

/-- An operation that writes nothing but its result (41_symbolic_simulator.md). -/
def State.answer (s : State) (r : Result) : State := { s with result := some r }

/-- The simulation's vector and its unroll position (R25, R29); the vector is also the operation's result. -/
def State.setVector (s : State) (v : StateVector) (p : Nat) : State :=
  { s with sv := some v, pos := p, result := some (.stateVector v) }

/-- The output vector (R27); it is also the operation's result. -/
def State.setOut (s : State) (v : OutVector) : State :=
  { s with ov := some v, result := some (.outVector v) }

/-- The Emitter has produced the text: the stage is `DONE` (R28) and the text describes a new circuit (R2, R157),
whose register holds no value yet (R32). -/
def State.finish (s : State) (t : Text) (ci : Circuit) : State :=
  { s with
    stage := .done
    result := some (.text t)
    text := some t
    circuit := some ci
    stateReg := none }

/-! ## The circuit's register and the host -/

/-- Write the register at a rising edge (R31); `none` is "holds no value" (R32). -/
def State.setReg (s : State) (v : Option Nat) : State := { s with stateReg := v }

/-- What the host has observed (R180). -/
def State.observe (s : State) (o : Observation) : State := { s with observed := some o }

/-- The host's next inputs. -/
def State.setPending (s : State) (l : List HostInput) : State := { s with pending := l }

/-! ## Reading the state -/

/-- The value of the StateVector: the identity vector until the simulation has written it (R26, R230). -/
def State.svNow (s : State) (c : Config) : StateVector := s.sv.getD (idVector c.w)

/-- The run has ended in an error (R202). -/
def State.runFailed (s : State) : Bool :=
  match s.stage with
  | .failed _ => true
  | _ => false

/-- The full module, where the circuit is one (R31). -/
def State.fullModule (s : State) : Option Circuit :=
  match s.circuit with
  | some ci => if ci.cfg.mode = .full then some ci else none
  | none => none

/-- The bare-logic block, where the circuit is one (R33). -/
def State.bareLogic (s : State) : Option Circuit :=
  match s.circuit with
  | some ci => if ci.cfg.mode = .bare then some ci else none
  | none => none

/-- `crc_out` of a full module: combinational from the register, and no value while that holds none (R176). -/
def State.crcOut (s : State) : Option Nat :=
  match s.fullModule, s.stateReg with
  | some ci, some v => some (post ci.cfg v)
  | _, _ => none

/-! ## Preconditions -/

/-- The operations that take `Cfg` run on the configuration the generator holds (R79). -/
def withConfig (s : State) (k : Config → Answer) : Answer :=
  match s.cfg with
  | some c => k c
  | none => .refused .noConfig

/-- The `CYC` operations act on a full module (R170). -/
def withFull (s : State) (k : Circuit → Answer) : Answer :=
  match s.fullModule with
  | some ci => k ci
  | none => .refused .noFullModule

/-- The `COMB` operation acts on a bare-logic block (R170). -/
def withBare (s : State) (k : Circuit → Answer) : Answer :=
  match s.bareLogic with
  | some ci => k ci
  | none => .refused .noBareLogic

/-- Raising an error from a run in progress; a run that has ended raises no more (R28, R203). -/
def raiseInRun (s : State) (e : GenError) : Answer :=
  match s.stage with
  | .done => .refused .runEnded
  | .failed _ => .refused .runEnded
  | _ => .next (s.raise e)

/-- Ending a run with its text; after an error no text is ever emitted (R202). -/
def finishRun (s : State) (t : Text) (ci : Circuit) : Answer :=
  if s.runFailed then .refused .runEnded else .next (s.finish t ci)

end Sys2Proof.Machine
end

