-- ==== Sys2Proof/Machine/Operands.lean ====
section
/-! DEFINITION. Reading the operands of the generator operations (R75): every form of `Src`, `TermSrc`, `EvalSrc`
and `CanonSrc`. -/

namespace Sys2Proof.Machine

/-- A StateVector operand. -/
def readVector (c : Config) (s : State) : Src StateVector → StateVector
  | .held => s.svNow c
  | .lit v => v

/-- The input Symbol index of SYM_STEP: the held one is the processing order's entry at the unroll position, and
there is none when all `N` bits are consumed (R29, R112). -/
def readIndex (c : Config) (s : State) : Src Nat → Option Nat
  | .held => (procOrder c.n c.refin)[s.pos]?
  | .lit j => some j

/-- An XorTerm operand, packed. -/
def readTerm (c : Config) (s : State) : TermSrc → XorTerm
  | .packed v => v
  | .syms l => packSyms c.widths l
  | .svAt k => (s.svNow c).getD k 0

/-- Element `j` of the held output vector. -/
def readOutAt (s : State) (j : Nat) : Option OutTerm :=
  s.ov.map fun v => v.getD j ⟨0, false⟩

/-- The operand of EVAL: an XorTerm is an OutTerm with the constant 0 (R118). -/
def readEval (c : Config) (s : State) : EvalSrc → Option OutTerm
  | .term t => some ⟨readTerm c s t, false⟩
  | .out t k => some ⟨readTerm c s t, k⟩
  | .ovAt j => readOutAt s j

/-- The canonical StateVector the Emitter and CHECK_LEN take: the held vector is canonicalized (R143). It is whatever
vector is held then, the identity vector or a partly unrolled one too, where the host hands the operations over out
of R155's order (DESIGN CHOICE, notes/assumptions/26.md). -/
def readCanonVec (c : Config) (s : State) : Src (List SymbolList) → List SymbolList
  | .held => canonVec c.widths (s.svNow c)
  | .lit v => v

/-- The canonical output vector; the held one exists only after OUTMAP (R230). -/
def readCanonOut (c : Config) (s : State) : Src (List OutList) → Option (List OutList)
  | .held => s.ov.map (canonOutVec c.widths)
  | .lit v => some v

/-- The caller's tuple: given with the operation, or the one the current invocation was started with. -/
def readRaw (s : State) : Src RawTuple → Option RawTuple
  | .held => s.raw
  | .lit r => some r

end Sys2Proof.Machine
end

