-- ==== Sys2Proof/Machine/Canonicalizer.lean ====
section
/-! DEFINITION. The Equation Canonicalizer's operations: CANON and CHECK_LEN (R140 to R144). -/

namespace Sys2Proof.Machine

/-- The value CANON returns for each form of its operand; a held element is the list of its members. -/
def canonResult (c : Config) (s : State) : CanonSrc → Option Result
  | .list l => some (.canonTerm (canon c.widths l))
  | .out l k => some (.canonOut (canonOut c.widths ⟨l, k⟩))
  | .svAt k => some (.canonTerm (canon c.widths (members c.widths ((s.svNow c).getD k 0))))
  | .ovAt j =>
    (readOutAt s j).map fun o => .canonOut (canonOut c.widths ⟨members c.widths o.term, o.const⟩)

/-- CANON (R140). -/
def execCanon (t : CanonSrc) (s : State) : Answer :=
  withConfig s fun c =>
    match canonResult c s t with
    | some r => .next (s.answer r)
    | none => .refused .noOutputVector

/-- CHECK_LEN (R142): unit, or the run ends in an InternalInvariantError (R201, R202). -/
def execCheckLen (sv : Src (List SymbolList)) (ov : Src (List OutList)) (s : State) : Answer :=
  withConfig s fun c =>
    match readCanonOut c s ov with
    | none => .refused .noOutputVector
    | some cov =>
      match lengthCheck c.w (readCanonVec c s sv) cov with
      | none => .next (s.answer .unit)
      | some e => raiseInRun s (.internal e)

end Sys2Proof.Machine
end

