-- ==== Sys2Proof/Machine/Circuit.lean ====
section
/-! DEFINITION. The generated circuit: the cycle operations of a full module, the one operation of a bare-logic
block (R170 to R177), and the host's reads (R179, R180). The circuit computes the equations of its text (R157). -/

namespace Sys2Proof.Machine

/-- CYC_RESET (R173): `data_in` and `data_en` are ignored, and reset wins over an update. -/
def execCycReset (_en : Bool) (_data : Nat) (s : State) : Answer :=
  withFull s fun ci => .next (s.setReg (some ci.cfg.init))

/-- The register after absorbing a word: a register that holds no value keeps holding none (R32, R174). -/
def regAfter (ci : Circuit) (v : Option Nat) (data : Nat) : Option Nat :=
  v.map fun x => vectorValue ci.cfg.widths ci.next x data

/-- CYC_UPDATE (R174). -/
def execCycUpdate (data : Nat) (s : State) : Answer :=
  withFull s fun ci => .next (s.setReg (regAfter ci s.stateReg data))

/-- CYC_HOLD (R175): `data_in` is ignored and the register keeps what it holds. -/
def execCycHold (_data : Nat) (s : State) : Answer :=
  withFull s fun _ => .next (s.setReg s.stateReg)

/-- COMB_EVAL (R177): the block has no state; its outputs for this word are observed (R180). -/
def execCombEval (x y : Nat) (s : State) : Answer :=
  withBare s fun ci =>
    .next (s.observe (.bare (vectorValue ci.cfg.widths ci.next x y) (outValue ci.cfg.widths ci.out x y)))

/-- The host observes the register (R180); before the first reset the spec makes that a fault (R32, D20, U3). -/
def readStateReg (s : State) : Answer :=
  withFull s fun _ =>
    match s.stateReg with
    | some v => .next (s.observe (.state v))
    | none => .fault .readBeforeReset

/-- The host reads the CRC (R179); before the first reset the spec makes that a fault (R32, R176, D20, U3). -/
def readCrcOut (s : State) : Answer :=
  withFull s fun _ =>
    match s.crcOut with
    | some v => .next (s.observe (.crcOut v))
    | none => .fault .readBeforeReset

end Sys2Proof.Machine
end

