-- ==== Sys2Proof/Machine/Resolver.lean ====
section
/-! DEFINITION. The Config Resolver: RESOLVE (R100 to R104) and the errors it raises (R200). -/

namespace Sys2Proof.Machine

/-- The field numbers, which are also the error codes (R20, R200). -/
def fieldCode : ConfigField → Nat
  | .w => 0
  | .poly => 1
  | .n => 2
  | .refin => 3
  | .refout => 4
  | .init => 5
  | .xorout => 6
  | .mode => 7

/-- The field names (R200). -/
def fieldName : ConfigField → String
  | .w => "W"
  | .poly => "POLY"
  | .n => "N"
  | .refin => "REFIN"
  | .refout => "REFOUT"
  | .init => "INIT"
  | .xorout => "XOROUT"
  | .mode => "MODE"

/-- The valid range of each field, as recorded text (R200). -/
def fieldRange : ConfigField → String
  | .w => ">= 1"
  | .poly => "0 .. 2^W - 1"
  | .n => ">= 1"
  | .refin => "false, true"
  | .refout => "false, true"
  | .init => "0 .. 2^W - 1"
  | .xorout => "0 .. 2^W - 1"
  | .mode => "BARE, FULL"

/-- The error that names a field (R200). -/
def configError (f : ConfigField) : ConfigError := ⟨fieldCode f, fieldName f, fieldRange f⟩

/-- The input word width where the caller omits it (R104). -/
def defaultN : RawVal := .int 8

/-- An integer that is at least 1. -/
def asPositive : RawVal → Option Nat
  | .int v => if 1 ≤ v then some v.toNat else none
  | _ => none

/-- An integer in `0 .. 2^w - 1`. -/
def asWord (w : Nat) : RawVal → Option Nat
  | .int v => if 0 ≤ v ∧ v.toNat < 2 ^ w then some v.toNat else none
  | _ => none

/-- A Boolean, with 0 for false and 1 for true (R20). -/
def asBool : RawVal → Option Bool
  | .bool b => some b
  | .int v => if v = 0 then some false else if v = 1 then some true else none
  | .name _ => none

/-- One of the two enumerators `BARE` and `FULL` (R22). -/
def asMode : RawVal → Option Mode
  | .name t => if t = "BARE" then some .bare else if t = "FULL" then some .full else none
  | _ => none

/-- What validating a tuple answers. -/
inductive Resolved where
  | ok (c : Config)
  | bad (f : ConfigField)
  deriving DecidableEq, Repr

/-- Validate and normalise a tuple: the checks in their order, the first that fails decides (R100, R204). -/
def resolveTuple (r : RawTuple) : Resolved :=
  match asPositive r.w with
  | none => .bad .w
  | some w =>
  match asWord w r.poly with
  | none => .bad .poly
  | some poly =>
  match asPositive (r.n.getD defaultN) with
  | none => .bad .n
  | some n =>
  match asBool r.refin with
  | none => .bad .refin
  | some refin =>
  match asBool r.refout with
  | none => .bad .refout
  | some refout =>
  match asWord w r.init with
  | none => .bad .init
  | some init =>
  match asWord w r.xorout with
  | none => .bad .xorout
  | some xorout =>
  match asMode r.mode with
  | none => .bad .mode
  | some mode => .ok ⟨w, poly, n, refin, refout, init, xorout, mode⟩

/-- RESOLVE as a run's first operation: the state it leaves, configured or failed (R100, R101, R202). -/
def State.resolveRun (s : State) (raw : RawTuple) : State :=
  match resolveTuple raw with
  | .ok c => (s.startRun raw).configure c
  | .bad f => (s.startRun raw).raise (.config (configError f))

/-- RESOLVE (R100). -/
def execResolve (raw : Src RawTuple) (s : State) : Answer :=
  match readRaw s raw with
  | some r => .next (s.resolveRun r)
  | none => .refused .noRaw

end Sys2Proof.Machine
end

