-- ==== Sys2Proof/Machine/Emitter.lean ====
section
/-! DEFINITION. The Emitter's operations: EMIT_BARE, EMIT_FULL and the whole run GENERATE (R152 to R157), with the
circuit each text describes (R157). -/

namespace Sys2Proof.Machine

/-- The equations a canonical vector states, packed (R157). -/
def packVec (wd : Widths) (sv : List SymbolList) : StateVector := sv.map (packSyms wd)

/-- The output equations a canonical output vector states, packed (R157). -/
def packOutVec (wd : Widths) (ov : List OutList) : OutVector :=
  ov.map fun o => ⟨packSyms wd o.syms, o.const⟩

/-- The circuit of the bare-logic text. -/
def bareCircuit (c : Config) (sv : List SymbolList) (ov : List OutList) : Circuit :=
  ⟨c, packVec c.widths sv, packOutVec c.widths ov⟩

/-- The circuit of the full-module text. -/
def fullCircuit (c : Config) (sv : List SymbolList) : Circuit :=
  ⟨c, packVec c.widths sv, registerOut c⟩

/-- EMIT_BARE (R152). -/
def execEmitBare (sv : Src (List SymbolList)) (ov : Src (List OutList)) (s : State) : Answer :=
  withConfig s fun c =>
    if c.mode = .bare then
      match readCanonOut c s ov with
      | none => .refused .noOutputVector
      | some cov =>
        finishRun s (bareText (readCanonVec c s sv) cov) (bareCircuit c (readCanonVec c s sv) cov)
    else .refused .wrongMode

/-- EMIT_FULL (R153). -/
def execEmitFull (sv : Src (List SymbolList)) (s : State) : Answer :=
  withConfig s fun c =>
    if c.mode = .full then
      finishRun s (fullText c (readCanonVec c s sv)) (fullCircuit c (readCanonVec c s sv))
    else .refused .wrongMode

/-- The text of either mode (R155). -/
def emitText (c : Config) (sv : List SymbolList) (ov : List OutList) : Text :=
  match c.mode with
  | .bare => bareText sv ov
  | .full => fullText c sv

/-- The circuit of either mode's text. -/
def emitCircuit (c : Config) (sv : List SymbolList) (ov : List OutList) : Circuit :=
  match c.mode with
  | .bare => bareCircuit c sv ov
  | .full => fullCircuit c sv

/-- The run after RESOLVE has succeeded: unroll, output map, canonicalize, check, emit (R155). -/
def State.pipeline (s : State) (c : Config) : State :=
  let sv := unroll c
  let ov := outmap c sv
  let s' := (s.setVector sv c.n).setOut ov
  let csv := canonVec c.widths sv
  let cov := canonOutVec c.widths ov
  match lengthCheck c.w csv cov with
  | some e => s'.raise (.internal e)
  | none => s'.finish (emitText c csv cov) (emitCircuit c csv cov)

/-- One whole generator run on a tuple (R155). -/
def State.generateRun (s : State) (raw : RawTuple) : State :=
  match resolveTuple raw with
  | .bad _ => s.resolveRun raw
  | .ok c => (s.resolveRun raw).pipeline c

/-- GENERATE (R155). -/
def execGenerate (raw : Src RawTuple) (s : State) : Answer :=
  match readRaw s raw with
  | some r => .next (s.generateRun r)
  | none => .refused .noRaw

end Sys2Proof.Machine
end

