-- ==== Sys2Proof/Machine/Simulator.lean ====
section
/-! DEFINITION. The Symbolic GF(2) Simulator's operations: TERM_XOR, SYM_STEP, UNROLL, OUTMAP and EVAL (R110 to
R118). Each is a pure function of its operands; it writes its result and, for a vector, the register that vector
lives in. -/

namespace Sys2Proof.Machine

/-- TERM_XOR (R110). -/
def execTermXor (t u : TermSrc) (s : State) : Answer :=
  withConfig s fun c => .next (s.answer (.term (termXor (readTerm c s t) (readTerm c s u))))

/-- The unroll position after one more step: it advances by 1 and never passes `N` (R29). -/
def posAfter (c : Config) (p : Nat) : Nat := if p < c.n then p + 1 else p

/-- SYM_STEP (R113). -/
def execSymStep (sv : Src StateVector) (j : Src Nat) (s : State) : Answer :=
  withConfig s fun c =>
    match readIndex c s j with
    | some k => .next (s.setVector (symStep c (readVector c s sv) k) (posAfter c s.pos))
    | none => .refused .noInputLeft

/-- UNROLL (R114): the position ends at `N` (R29). -/
def execUnroll (s : State) : Answer :=
  withConfig s fun c => .next (s.setVector (unroll c) c.n)

/-- OUTMAP (R117). -/
def execOutmap (sv : Src StateVector) (s : State) : Answer :=
  withConfig s fun c => .next (s.setOut (outmap c (readVector c s sv)))

/-- EVAL (R118). -/
def execEval (t : EvalSrc) (x y : Nat) (s : State) : Answer :=
  withConfig s fun c =>
    match readEval c s t with
    | some o => .next (s.answer (.bit (evalOut c.widths o x y)))
    | none => .refused .noOutputVector

end Sys2Proof.Machine
end

