-- ==== Sys2Proof/Machine/Dispatch.lean ====
section
/-! DEFINITION. One arm per instruction, each a direct call of its meaning. -/

namespace Sys2Proof.Machine

def exec (i : Instr) (s : State) : Host.Outcome State Fault Refusal :=
  match i with
  | .resolve raw => Sys2Proof.Machine.execResolve raw s
  | .termXor t u => Sys2Proof.Machine.execTermXor t u s
  | .symStep sv j => Sys2Proof.Machine.execSymStep sv j s
  | .unroll => Sys2Proof.Machine.execUnroll s
  | .outmap sv => Sys2Proof.Machine.execOutmap sv s
  | .canon t => Sys2Proof.Machine.execCanon t s
  | .checkLen sv ov => Sys2Proof.Machine.execCheckLen sv ov s
  | .emitBare sv ov => Sys2Proof.Machine.execEmitBare sv ov s
  | .emitFull sv => Sys2Proof.Machine.execEmitFull sv s
  | .generate raw => Sys2Proof.Machine.execGenerate raw s
  | .eval t x y => Sys2Proof.Machine.execEval t x y s
  | .cycReset en data => Sys2Proof.Machine.execCycReset en data s
  | .cycUpdate data => Sys2Proof.Machine.execCycUpdate data s
  | .cycHold data => Sys2Proof.Machine.execCycHold data s
  | .combEval x y => Sys2Proof.Machine.execCombEval x y s

end Sys2Proof.Machine
end

