-- ==== Sys2Proof/Machine/Fetch.lean ====
section
/-! DEFINITION. Fetching the next operation: the host's next input, the format's widths, decoding, and what a run
that has ended no longer reaches. There is no program counter and no program memory (R29, R34, R50): what runs next
is what the host hands over next (R179). Also here: placing a table word so that it is the next operation. -/

namespace Sys2Proof.Machine

/-- What the next step does. -/
inductive Fetched where
  /-- The host has handed over nothing: nothing happens. -/
  | idle
  /-- Run the instruction in this state. -/
  | run (i : Instr) (s : State)
  /-- The operation belongs to a run that has ended in an error and is never reached. -/
  | unreached (s : State)
  /-- The host observes the register. -/
  | readState (s : State)
  /-- The host reads the CRC. -/
  | readCrc (s : State)
  | refuse (r : Refusal)
  deriving DecidableEq, Repr

/-- The widths a format is decoded under: those of the configuration its agent has (R70). Before RESOLVE there is no
legal Symbol, hence widths 0. A `CYC` or `COMB` word needs a circuit of its kind. -/
def State.widthsFor (s : State) : Format → Option Widths
  | .gen =>
    match s.cfg with
    | some c => some c.widths
    | none => some ⟨0, 0⟩
  | .cyc => s.fullModule.map fun ci => ci.cfg.widths
  | .comb => s.bareLogic.map fun ci => ci.cfg.widths

/-- Why a format has no widths. -/
def noAgent : Format → Refusal
  | .gen => .noConfig
  | .cyc => .noFullModule
  | .comb => .noBareLogic

/-- A generator operation after the run has ended in an error is never reached, unless it begins a new invocation
(R202, R203, program P5b). -/
def State.neverReached (s : State) (f : Format) (i : Instr) : Bool :=
  decide (f = .gen) && s.runFailed && !i.startsRun

/-- Fetch one operation word, in the state without it. -/
def fetchOp (x : OpWord) (s : State) : Fetched :=
  match s.widthsFor x.fmt with
  | none => .refuse (noAgent x.fmt)
  | some wd =>
    match decode wd x with
    | .bad e => .refuse (.undecodable e)
    | .ok i =>
      if s.neverReached x.fmt i then .unreached s
      else if i.wellFormed wd then .run i s
      else .refuse .illFormedOperand

/-- Fetch the host's next input. -/
def fetch (s : State) : Fetched :=
  match s.pending with
  | [] => .idle
  | .op x :: l => fetchOp x (s.setPending l)
  | .readState :: l => .readState (s.setPending l)
  | .readCrc :: l => .readCrc (s.setPending l)

/-! ## Placing a table word

The loader of a single operation: it puts the word first, and where the machine lacks what that operation takes
(the caller's tuple, a resolved configuration, an output vector, a circuit of the right kind), it supplies it, as
earlier operations of a run would have (notes/assumptions/13.md). -/

/-- The configuration supplied: `CRC8` of 95_test_vectors.md in the mode asked for, with the input word of the table
word's widths. -/
def tableConfig (nbits : Nat) (m : Mode) : Config :=
  ⟨8, 0x07, (tableWidths nbits).n, false, false, 0, 0, m⟩

/-- The caller's tuple supplied. -/
def tableRaw (nbits : Nat) (m : Mode) : RawTuple :=
  ⟨.int 8, .int 0x07, some (.int (tableWidths nbits).n), .bool false, .bool false, .int 0, .int 0,
    .name (match m with | .bare => "BARE" | .full => "FULL")⟩

/-- A generator that has run RESOLVE and OUTMAP on the configuration supplied. -/
def State.supplyRun (s : State) (nbits : Nat) (m : Mode) : State :=
  ((s.startRun (tableRaw nbits m)).configure (tableConfig nbits m)).setOut
    (outmap (tableConfig nbits m) (idVector 8))

/-- A circuit of the configuration supplied, its register without a value. -/
def State.supplyCircuit (s : State) (nbits : Nat) (m : Mode) : State :=
  let c := tableConfig nbits m
  { s with
    circuit := some ⟨c, unroll c, match m with
      | .bare => outmap c (unroll c)
      | .full => outmap c (idVector c.w)⟩
    stateReg := none }

/-- The generator is not in a failed run, and holds a configuration and an output vector. -/
def State.runReady (s : State) : Bool := s.cfg.isSome && s.ov.isSome && !s.runFailed

/-- The generator is ready to emit in a mode. -/
def State.emitReady (s : State) (m : Mode) : Bool :=
  s.runReady && decide (s.cfg.map Config.mode = some m)

/-- The generator has an input bit left to step over. -/
def State.stepReady (s : State) : Bool :=
  s.runReady && decide (s.pos < (s.cfg.map Config.n).getD 0)

/-- Supply what an operation of the table takes, where the machine lacks it. -/
def State.supply (s : State) (nbits : Nat) (x : OpWord) : State :=
  match x.fmt, decode (tableWidths nbits) x with
  | .gen, .ok (.resolve _) =>
    if s.raw.isSome && !s.runFailed then s else s.startRun (tableRaw nbits .full)
  | .gen, .ok (.generate _) =>
    if s.raw.isSome && !s.runFailed then s else s.startRun (tableRaw nbits .full)
  | .gen, .ok (.symStep _ _) => if s.stepReady then s else s.supplyRun nbits .full
  | .gen, .ok (.emitBare _ _) => if s.emitReady .bare then s else s.supplyRun nbits .bare
  | .gen, .ok (.emitFull _) => if s.emitReady .full then s else s.supplyRun nbits .full
  | .gen, _ => if s.runReady then s else s.supplyRun nbits .full
  | .cyc, i =>
    if (s.widthsFor .cyc).map (fun wd => decode wd x) = some i then s else s.supplyCircuit nbits .full
  | .comb, i =>
    if (s.widthsFor .comb).map (fun wd => decode wd x) = some i then s else s.supplyCircuit nbits .bare

/-- Place a table word as the next operation. -/
def State.placeTableWord (s : State) (nbits w : Nat) : State :=
  let s' := s.supply nbits (tableOp nbits w)
  s'.setPending (.op (tableOp nbits w) :: s'.pending)

end Sys2Proof.Machine
end

