-- ==== Sys2Proof/Machine/Step.lean ====
section
/-! DEFINITION. One step of the machine: what was fetched is done. -/

namespace Sys2Proof.Machine

/-- One step: the host's next input is served by the agent it is for. -/
def step (s : State) : Host.Outcome State Fault Refusal :=
  match fetch s with
  | .idle => .next s
  | .run i t => exec i t
  | .unreached t => .next t
  | .readState t => readStateReg t
  | .readCrc t => readCrcOut t
  | .refuse r => .refused r

/-- The state whose next step fetches and runs a word of the opcode table. -/
def State.withFetchWord (s : State) (nbits w : Nat) : State := s.placeTableWord nbits w

end Sys2Proof.Machine
end

