-- ==== Sys2Proof/Machine/Asm.lean ====
section
/-! DEFINITION. The assembler: lines and pseudo-operations into host inputs (R80, R81, R54, R57), and the text of
a line into a line. A value that does not fit is refused, never truncated (R80). -/

namespace Sys2Proof.Machine

/-- Why the assembler refuses a line. -/
inductive AsmError where
  /-- The text is no line of R80 or R81. -/
  | syntaxError
  /-- A `resolve` line lacks a field other than `N` (R104). -/
  | missingField (f : ConfigField)
  /-- A value does not fit its field (R80). -/
  | valueTooWide (v : Nat)
  /-- A written term names a Symbol that the configuration does not have (R23). -/
  | illegalSymbol (m : Symbol)
  /-- A string does not fill whole words (R57, R81). -/
  | notWholeWords
  /-- `bytes` needs an `N` that is a multiple of 8 (R81). -/
  | noByteLanes
  /-- A line that needs the widths, and no configuration is known. -/
  | noConfig
  deriving DecidableEq, Repr

/-- What assembling answers. -/
inductive Assembled where
  | ok (l : List HostInput)
  | bad (e : AsmError)
  deriving DecidableEq, Repr

/-- A tuple from the fields of a `resolve` line: every field but `N` must be there (R104). -/
def completeRaw (f : RawFields) : Except AsmError RawTuple :=
  match f.w, f.poly, f.refin, f.refout, f.init, f.xorout, f.mode with
  | some w, some poly, some refin, some refout, some init, some xorout, some mode =>
    .ok ⟨w, poly, f.n, refin, refout, init, xorout, mode⟩
  | none, _, _, _, _, _, _ => .error (.missingField .w)
  | _, none, _, _, _, _, _ => .error (.missingField .poly)
  | _, _, none, _, _, _, _ => .error (.missingField .refin)
  | _, _, _, none, _, _, _ => .error (.missingField .refout)
  | _, _, _, _, none, _, _ => .error (.missingField .init)
  | _, _, _, _, _, none, _ => .error (.missingField .xorout)
  | _, _, _, _, _, _, none => .error (.missingField .mode)

/-- The cycle word with the given control bits, where the data fits in `N` bits. -/
def asmCyc (c : Config) (rst en : Bool) (v : Nat) : Assembled :=
  if v < 2 ^ c.n then .ok [.op (cycWord rst en v)] else .bad (.valueTooWide v)

/-- One `update` per word (R81). -/
def asmMessage (c : Config) : List Nat → Assembled
  | [] => .ok []
  | v :: l =>
    match asmCyc c false true v, asmMessage c l with
    | .ok a, .ok b => .ok (a ++ b)
    | .bad e, _ => .bad e
    | _, .bad e => .bad e

/-- Little-endian packing: the first byte in the lowest lane (R54). -/
def packLittle : List Nat → Nat
  | [] => 0
  | b :: l => b + 256 * packLittle l

/-- Big-endian packing: the first byte in the top lane (R54). -/
def packBig (l : List Nat) : Nat := l.foldl (fun acc b => acc * 256 + b) 0

/-- Cut a list into pieces of `k` elements, with fuel; none where the last piece is short. -/
def pieces (k : Nat) : Nat → List Nat → Option (List (List Nat))
  | _, [] => some []
  | 0, _ :: _ => none
  | fuel + 1, l@(_ :: _) =>
    if l.length < k then none
    else (pieces k fuel (l.drop k)).map fun t => l.take k :: t

/-- The bytes of a string as `N`-bit words: little-endian lanes with `REFIN`, big-endian without (R54, R81). -/
def packBytes (c : Config) (bs : List Nat) : Except AsmError (List Nat) :=
  if c.n % 8 ≠ 0 ∨ c.n = 0 then .error .noByteLanes
  else
    match bs.find? (fun b => 256 ≤ b) with
    | some b => .error (.valueTooWide b)
    | none =>
      match pieces (c.n / 8) bs.length bs with
      | none => .error .notWholeWords
      | some ps => .ok (ps.map (if c.refin then packLittle else packBig))

/-- `bytes` (R81). -/
def asmBytes (c : Config) (bs : List Nat) : Assembled :=
  match packBytes c bs with
  | .ok ws => asmMessage c ws
  | .error e => .bad e

/-- The `reset` line's cycle word: `rst = 1`, `en = 0`, `data = 0` (R80). -/
def resetInput : HostInput := .op (cycWord true false 0)

/-- The `hold` line's cycle word: all zero (R80). -/
def holdInput : HostInput := .op (cycWord false false 0)

/-- The lines that need the widths of the configuration. -/
def withWidths (ctx : Option Config) (k : Config → Assembled) : Assembled :=
  match ctx with
  | some c => k c
  | none => .bad .noConfig

/-- The Symbols and the packed number of a written term are within the index space (R23, R51). -/
def checkTerm (wd : Widths) : AsmTerm → Option AsmError
  | .set l => (l.find? fun m => !m.legal wd).map .illegalSymbol
  | .list l => (l.find? fun m => !m.legal wd).map .illegalSymbol
  | .packed v => if v < 2 ^ (wd.w + wd.n) then none else some (.valueTooWide v)

/-- A written term, packed (R24). -/
def packTerm (wd : Widths) : AsmTerm → XorTerm
  | .set l => packSyms wd l
  | .list l => packSyms wd l
  | .packed v => v

/-- A written term as a list of Symbols: a set or a packed number in the canonical order (R141), a list as it is. -/
def listTerm (wd : Widths) : AsmTerm → SymbolList
  | .set l => canon wd l
  | .list l => l
  | .packed v => members wd v

/-- A vector operand of a line, each item put into its form by `f`. -/
def srcOf {α β : Type} (f : α → β) : Src (List α) → Src (List β)
  | .held => .held
  | .lit l => .lit (l.map f)

/-- The terms a vector operand of a line writes out; a held one writes none. -/
def writtenItems {α : Type} : Src (List α) → List α
  | .held => []
  | .lit l => l

/-- A function application: where its vectors are written out, the widths of the configuration put them into the form
that each operation reads, the packed one of SYM_STEP and OUTMAP and the canonical one of CHECK_LEN and the Emitter. -/
def asmApply (ctx : Option Config) (op : Nat) (args : GenArgs) (sv : Src (List AsmTerm))
    (ov : Src (List (AsmTerm × Bool))) : Assembled :=
  if sv = .held ∧ ov = .held then .ok [.op ⟨.gen, op, args⟩]
  else withWidths ctx fun c =>
    match (writtenItems sv ++ (writtenItems ov).map Prod.fst).findSome? (checkTerm c.widths) with
    | some e => .bad e
    | none => .ok [.op ⟨.gen, op, { args with
        sv := srcOf (packTerm c.widths) sv
        csv := srcOf (listTerm c.widths) sv
        cov := srcOf (fun o => ⟨listTerm c.widths o.1, o.2⟩) ov }⟩]

/-- One line into host inputs, under the configuration in force. -/
def assemble (ctx : Option Config) : AsmLine → Assembled
  | .resolve f =>
    match completeRaw f with
    | .ok r => .ok [.op (encode ⟨0, 0⟩ (.resolve (.lit r)))]
    | .error e => .bad e
  | .generate => .ok [.op (encode ⟨0, 0⟩ (.generate .held))]
  | .apply op args sv ov => asmApply ctx op args sv ov
  | .reset => .ok [resetInput]
  | .resetEn v => withWidths ctx fun c => asmCyc c true true v
  | .update v => withWidths ctx fun c => asmCyc c false true v
  | .hold => .ok [holdInput]
  | .holdD v => withWidths ctx fun c => asmCyc c false false v
  | .comb s d => withWidths ctx fun c =>
    if 2 ^ c.w ≤ s then .bad (.valueTooWide s)
    else if 2 ^ c.n ≤ d then .bad (.valueTooWide d)
    else .ok [.op (combWord c.widths s d)]
  | .message ws => withWidths ctx fun c => asmMessage c ws
  | .bytes bs => withWidths ctx fun c => asmBytes c bs
  | .crc bs => withWidths ctx fun c =>
    match asmBytes c bs with
    | .ok l => .ok (resetInput :: l)
    | .bad e => .bad e
  | .idle k => .ok (List.replicate k holdInput)

/-- The configuration in force after a line: a `resolve` line that succeeds sets it. -/
def contextAfter (ctx : Option Config) : AsmLine → Option Config
  | .resolve f =>
    match completeRaw f with
    | .ok r =>
      match resolveTuple r with
      | .ok c => some c
      | .bad _ => ctx
    | .error _ => ctx
  | _ => ctx

/-- A program: its lines in order; the first line that is refused refuses the program. -/
def assembleAll (ctx : Option Config) : List AsmLine → Assembled
  | [] => .ok []
  | a :: l =>
    match assemble ctx a, assembleAll (contextAfter ctx a) l with
    | .ok x, .ok y => .ok (x ++ y)
    | .bad e, _ => .bad e
    | _, .bad e => .bad e

/-! ## The text of a line -/

/-- Cut at every occurrence of a character. -/
def splitAt (sep : Char) : Text → List Text
  | [] => [[]]
  | ch :: l =>
    if ch = sep then [] :: splitAt sep l
    else
      match splitAt sep l with
      | [] => [[ch]]
      | a :: t => (ch :: a) :: t

/-- Drop the spaces at the front. -/
def dropSpaces : Text → Text
  | [] => []
  | ch :: l => if ch = ' ' then dropSpaces l else ch :: l

/-- Drop the spaces at both ends. -/
def trim (t : Text) : Text := (dropSpaces (dropSpaces t).reverse).reverse

/-- The words of a line, separated by spaces. -/
def wordsOf (t : Text) : List Text := (splitAt ' ' t).filter fun a => !a.isEmpty

/-- The value of a digit in a base up to 16. -/
def digitIn (base : Nat) (ch : Char) : Option Nat :=
  let v := ch.toNat
  let d :=
    if 48 ≤ v ∧ v ≤ 57 then v - 48
    else if 97 ≤ v ∧ v ≤ 102 then v - 87
    else if 65 ≤ v ∧ v ≤ 70 then v - 55
    else base
  if d < base then some d else none

/-- The digits of a number after the value read so far. -/
def digitsFrom (base : Nat) : Nat → Text → Option Nat
  | acc, [] => some acc
  | acc, ch :: l =>
    match digitIn base ch with
    | some d => digitsFrom base (acc * base + d) l
    | none => none

/-- A number: decimal, or hexadecimal with `0x` (R80). -/
def parseNumber : Text → Option Nat
  | [] => none
  | ['0', 'x'] => none
  | '0' :: 'x' :: l => digitsFrom 16 0 l
  | l => digitsFrom 10 0 l

/-- A number of a `resolve` line, which may carry a minus sign. DESIGN CHOICE (notes/assumptions/18.md): R80 gives
`<n>` and `<v>` no sign, and R100 raises on a negative field; with the sign the line says such a tuple, and RESOLVE
is what refuses it. -/
def parseInteger : Text → Option Int
  | '-' :: l => (parseNumber l).map fun v => -(v : Int)
  | l => (parseNumber l).map fun v => (v : Int)

/-- Numbers separated by commas. -/
def parseNumbers (t : Text) : Option (List Nat) := (splitAt ',' t).mapM fun a => parseNumber (trim a)

/-- A field that is not yet given may be given. -/
def setOnce (old : Option RawVal) (v : Option RawVal) : Option (Option RawVal) :=
  match old, v with
  | none, some x => some (some x)
  | _, _ => none

/-- Add one `KEY=value` word of a `resolve` line. DESIGN CHOICE (notes/assumptions/18.md): R80 writes `REFIN=<0|1>`,
`REFOUT=<0|1>` and `MODE=<BARE|FULL>`; the assembler takes any number for a flag and any name for the mode, and RESOLVE
is what refuses a wrong one (R100). -/
def addField (f : RawFields) (word : Text) : Option RawFields :=
  match splitAt '=' word with
  | [key, value] =>
    let num := (parseInteger value).map RawVal.int
    if key = "W".toList then (setOnce f.w num).map fun v => { f with w := v }
    else if key = "POLY".toList then (setOnce f.poly num).map fun v => { f with poly := v }
    else if key = "N".toList then (setOnce f.n num).map fun v => { f with n := v }
    else if key = "REFIN".toList then (setOnce f.refin num).map fun v => { f with refin := v }
    else if key = "REFOUT".toList then (setOnce f.refout num).map fun v => { f with refout := v }
    else if key = "INIT".toList then (setOnce f.init num).map fun v => { f with init := v }
    else if key = "XOROUT".toList then (setOnce f.xorout num).map fun v => { f with xorout := v }
    else if key = "MODE".toList then
      (setOnce f.mode (some (.name (String.ofList value)))).map fun v => { f with mode := v }
    else none
  | _ => none

/-- All the words of a `resolve` line. DESIGN CHOICE (notes/assumptions/18.md): the fields may stand in any order, not
only in that of R80. -/
def parseFields : RawFields → List Text → Option RawFields
  | f, [] => some f
  | f, a :: l =>
    match addField f a with
    | some g => parseFields g l
    | none => none

/-- The bytes of a quoted string. R81 gives no escape, so a line with a double quote inside its string is refused
(DESIGN CHOICE, notes/assumptions/18.md). -/
def parseQuoted (t : Text) : Option (List Nat) :=
  match t with
  | '\x22' :: l =>
    match l.reverse with
    | '\x22' :: r => if r.contains '\x22' then none else some (r.reverse.map Char.toNat)
    | _ => none
  | _ => none

/-- The mnemonic of a line and the rest of it. -/
def headWord : Text → Text × Text
  | [] => ([], [])
  | ch :: l => if ch = ' ' then ([], l) else ((ch :: (headWord l).1), (headWord l).2)

/-! ### Function applications

The generator operations other than `resolve` and `generate` (R80), with the operands of R75: `Cfg`, `sv` and `ov` are
the held ones, `sv[k]` and `ov[j]` their elements (R11), a term is its set of Symbols (R10) or its packed number (R24),
a list of Symbols stands in brackets (R140), an output term is a pair with its constant (R27), and a vector is a list
of terms in brackets, as in the example of R142. How operands are written beyond these is DESIGN CHOICE
(notes/assumptions/18.md). -/

/-- Cut at the commas that stand in no bracket. -/
def splitArgs : Nat → Text → List Text
  | _, [] => [[]]
  | depth, ch :: l =>
    if ch = ',' ∧ depth = 0 then [] :: splitArgs 0 l
    else
      let depth' :=
        if ch = '(' ∨ ch = '[' ∨ ch = '\x7B' then depth + 1
        else if ch = ')' ∨ ch = ']' ∨ ch = '\x7D' then depth - 1
        else depth
      match splitArgs depth' l with
      | [] => [[ch]]
      | a :: t => (ch :: a) :: t

/-- What stands between an opening character and a closing one that ends the text. -/
def between (op cl : Char) : Text → Option Text
  | [] => none
  | ch :: l =>
    if ch = op then
      match l.reverse with
      | e :: r => if e = cl then some (trim r.reverse) else none
      | [] => none
    else none

/-- The items between two brackets, each read by `f`. -/
def parseItems {α : Type} (op cl : Char) (f : Text → Option α) (t : Text) : Option (List α) :=
  match between op cl t with
  | some [] => some []
  | some body => (splitArgs 0 body).mapM fun a => f (trim a)
  | none => none

/-- `S_i` or `D_j` (R10). -/
def parseSymbol : Text → Option Symbol
  | 'S' :: '_' :: l => (parseNumber l).map .state
  | 'D' :: '_' :: l => (parseNumber l).map .input
  | _ => none

/-- A list of Symbols in brackets (R140). -/
def parseList (t : Text) : Option SymbolList := parseItems '[' ']' parseSymbol t

/-- A set of Symbols in braces (R10). -/
def parseSet (t : Text) : Option SymbolList := parseItems '\x7B' '\x7D' parseSymbol t

/-- The Symbols of a term, as a list or as a set: a set is a list without repeats (R140). -/
def parseSymbols (t : Text) : Option SymbolList := (parseList t).orElse fun _ => parseSet t

/-- A constant bit. -/
def parseBit (t : Text) : Option Bool :=
  if t = ['0'] then some false else if t = ['1'] then some true else none

/-- A pair with its constant, the first part read by `f` (R27). -/
def parsePair {α : Type} (f : Text → Option α) (t : Text) : Option (α × Bool) :=
  match parseItems '(' ')' some t with
  | some [a, c] =>
    match f a, parseBit c with
    | some x, some b => some (x, b)
    | _, _ => none
  | _ => none

/-- Element `k` of a named vector, `sv[k]` or `ov[j]` (R11). -/
def parseElement (v : Char) : Text → Option Nat
  | a :: 'v' :: l => if a = v then (between '[' ']' l).bind parseNumber else none
  | _ => none

/-- An XorTerm operand. -/
def parseTerm (t : Text) : Option TermSrc :=
  (((parseSet t).map TermSrc.syms).orElse fun _ =>
    (parseNumber t).map .packed).orElse fun _ => (parseElement 's' t).map .svAt

/-- The operand of EVAL. -/
def parseEval (t : Text) : Option EvalSrc :=
  (((parsePair parseTerm t).map fun q => EvalSrc.out q.1 q.2).orElse fun _ =>
    (parseElement 'o' t).map .ovAt).orElse fun _ => (parseTerm t).map .term

/-- The operand of CANON. -/
def parseCanon (t : Text) : Option CanonSrc :=
  ((((parseSymbols t).map CanonSrc.list).orElse fun _ =>
    (parsePair parseSymbols t).map fun q => CanonSrc.out q.1 q.2).orElse fun _ =>
    (parseElement 's' t).map .svAt).orElse fun _ => (parseElement 'o' t).map .ovAt

/-- A held operand under its name, or one written out. -/
def parseSrc {α : Type} (name : String) (f : Text → Option α) (t : Text) : Option (Src α) :=
  if t = name.toList then some .held else (f t).map .lit

/-- A term of a written vector. -/
def parseAsmTerm (t : Text) : Option AsmTerm :=
  (((parseSet t).map AsmTerm.set).orElse fun _ => (parseList t).map .list).orElse fun _ =>
    (parseNumber t).map .packed

/-- A StateVector operand: `sv`, or its terms in brackets. -/
def parseVector (t : Text) : Option (Src (List AsmTerm)) :=
  parseSrc "sv" (parseItems '[' ']' parseAsmTerm) t

/-- An output vector operand: `ov`, or its pairs in brackets. -/
def parseOutVector (t : Text) : Option (Src (List (AsmTerm × Bool))) :=
  parseSrc "ov" (parseItems '[' ']' (parsePair parseAsmTerm)) t

/-- The name before the first opening parenthesis, and the rest from there. -/
def applyHead : Text → Text × Text
  | [] => ([], [])
  | ch :: l => if ch = '(' then ([], ch :: l) else (ch :: (applyHead l).1, (applyHead l).2)

/-- The operands of each operation, in the order of R75. -/
def parseOperands (name : Text) (args : List Text) : Option AsmLine :=
  match args with
  | [c] =>
    if name = "UNROLL".toList ∧ c = "Cfg".toList then some (.apply 0x3 {} .held .held)
    else if name = "CANON".toList then (parseCanon c).map fun t =>
      .apply 0x5 { canonOf := t } .held .held
    else none
  | [a, b] =>
    if name = "TERM_XOR".toList then
      match parseTerm a, parseTerm b with
      | some t, some u => some (.apply 0x1 { t := t, u := u } .held .held)
      | _, _ => none
    else if name = "OUTMAP".toList ∧ a = "Cfg".toList then
      (parseVector b).map fun v => .apply 0x4 {} v .held
    else if name = "EMIT_FULL".toList ∧ a = "Cfg".toList then
      (parseVector b).map fun v => .apply 0x8 {} v .held
    else none
  | [a, b, d] =>
    if name = "SYM_STEP".toList ∧ a = "Cfg".toList then
      match parseVector b, parseSrc "j" parseNumber d with
      | some v, some j => some (.apply 0x2 { j := j } v .held)
      | _, _ => none
    else if name = "CHECK_LEN".toList ∧ a = "Cfg".toList then
      match parseVector b, parseOutVector d with
      | some v, some o => some (.apply 0x6 {} v o)
      | _, _ => none
    else if name = "EMIT_BARE".toList ∧ a = "Cfg".toList then
      match parseVector b, parseOutVector d with
      | some v, some o => some (.apply 0x7 {} v o)
      | _, _ => none
    else if name = "EVAL".toList then
      match parseEval a, parseNumber b, parseNumber d with
      | some t, some x, some y => some (.apply 0xA { evalOf := t, s := x, d := y } .held .held)
      | _, _, _ => none
    else none
  | _ => none

/-- A function application (R80). -/
def parseApply (t : Text) : Option AsmLine :=
  match parseItems '(' ')' some (applyHead t).2 with
  | some args => parseOperands (applyHead t).1 args
  | none => none

/-- The line without its comment. DESIGN CHOICE (notes/assumptions/18.md): a comment begins at the first semicolon
that stands outside a quoted string, also after a string. The flag says that a string is open. -/
def dropComment : Bool → Text → Text
  | _, [] => []
  | inString, ch :: l =>
    if ch = ';' ∧ inString = false then []
    else ch :: dropComment (if ch = '\x22' then !inString else inString) l

/-- What a line says: its text without comment and without the spaces around it. -/
def lineBody (t : Text) : Text := trim (dropComment false t)

/-- The text of a line into a line (R80, R81); `parseLines` passes over a line that says nothing. -/
def parseLine (t : Text) : Option AsmLine :=
  let line := lineBody t
  let h := (headWord line).1
  let r := trim (headWord line).2
  if h = "resolve".toList then (parseFields {} (wordsOf r)).map AsmLine.resolve
  else if h = "generate".toList then if r = [] then some .generate else none
  else if h = "reset".toList then if r = [] then some .reset else none
  else if h = "reset.en".toList then (parseNumber r).map AsmLine.resetEn
  else if h = "update".toList then (parseNumber r).map AsmLine.update
  else if h = "hold".toList then if r = [] then some .hold else none
  else if h = "hold.d".toList then (parseNumber r).map AsmLine.holdD
  else if h = "comb".toList then
    match parseNumbers r with
    | some [s, d] => some (.comb s d)
    | _ => none
  else if h = "message".toList then (parseNumbers r).map AsmLine.message
  else if h = "bytes".toList then (parseQuoted r).map AsmLine.bytes
  else if h = "crc".toList then (parseQuoted r).map AsmLine.crc
  else if h = "idle".toList then (parseNumber r).map AsmLine.idle
  else parseApply line

/-- The lines of a program. DESIGN CHOICE (notes/assumptions/18.md): a line that is blank or only a comment says
nothing and is passed over. -/
def parseLines : List Text → Option (List AsmLine)
  | [] => some []
  | t :: l =>
    if lineBody t = [] then parseLines l
    else
      match parseLine t, parseLines l with
      | some a, some b => some (a :: b)
      | _, _ => none

/-- A program's text into host inputs. -/
def assembleText (ctx : Option Config) (lines : List Text) : Assembled :=
  match parseLines lines with
  | some l => assembleAll ctx l
  | none => .bad .syntaxError

/-- Hand a program over to the machine: its inputs follow those already pending. -/
def State.load (s : State) (l : List HostInput) : State := s.setPending (s.pending ++ l)

end Sys2Proof.Machine
end

