-- ==== Sys2Proof/Safety.lean ====
section
/-! DEFINITION. The terms in which claims are made: the machine's invariant, the moves of the stage register, the
legal field values of a tuple, running a list of instructions or of edges, and the circuit of a configuration. -/

namespace Sys2Proof.Machine

/-! ## The invariant -/

/-- An output vector has exactly `W` elements, each over legal Symbols (R27). -/
def outLegal (wd : Widths) (v : OutVector) : Bool :=
  v.length == wd.w && v.all fun o => termLegal wd o.term

/-- A circuit has a valid configuration and equations over its Symbols (R23, R25, R27). -/
def CircuitOk (ci : Circuit) : Prop :=
  ci.cfg.Valid ∧ vectorLegal ci.cfg.widths ci.next = true ∧ outLegal ci.cfg.widths ci.out = true

/-- What holds of the machine at all times. -/
structure Inv (s : State) : Prop where
  /-- A held configuration is valid (R20). -/
  cfgValid : ∀ c, s.cfg = some c → c.Valid
  /-- Before RESOLVE there is no configuration and no text (R28, R230). -/
  atStart : s.stage = .start → s.cfg = none ∧ s.text = none
  /-- After RESOLVE and before the Emitter (R28). -/
  atConfigured : s.stage = .configured → s.cfg ≠ none ∧ s.text = none
  /-- `DONE`: the Emitter has produced the text (R28). -/
  atDone : s.stage = .done → s.cfg ≠ none ∧ s.text ≠ none
  /-- After an error there is no text (R202). -/
  atFailed : ∀ e, s.stage = .failed e → s.text = none
  /-- Without a configuration the simulation has not started (R230). -/
  noConfig : s.cfg = none → s.sv = none ∧ s.ov = none ∧ s.pos = 0
  /-- The StateVector has `W` elements over legal Symbols (R24, R25). -/
  vector : ∀ c v, s.cfg = some c → s.sv = some v → vectorLegal c.widths v = true
  /-- The output vector has `W` elements over legal Symbols (R27). -/
  outs : ∀ c v, s.cfg = some c → s.ov = some v → outLegal c.widths v = true
  /-- The unroll position is at most `N` (R29). -/
  position : ∀ c, s.cfg = some c → s.pos ≤ c.n
  /-- The circuit's equations are over its own Symbols. -/
  circuitOk : ∀ ci, s.circuit = some ci → CircuitOk ci
  /-- A register that holds a value is that of a full module, and the value has `W` bits (R31). -/
  register : ∀ v, s.stateReg = some v → ∃ ci, s.fullModule = some ci ∧ v < 2 ^ ci.cfg.w

/-- The moves of the stage register within a run, RESOLVE's own move apart (R28). -/
def StageMove (a b : Stage) : Prop :=
  a = b ∨ (a = .configured ∧ (b = .done ∨ ∃ e, b = .failed (.internal e)))

/-- The two operations that begin with RESOLVE (R100, R155). -/
def beginsWithResolve : Instr → Bool
  | .resolve _ => true
  | .generate _ => true
  | _ => false

/-- The operations that produce a text when they succeed (R152, R153, R155). -/
def emits : Instr → Bool
  | .emitBare _ _ => true
  | .emitFull _ => true
  | .generate _ => true
  | _ => false

/-- The operations of the generated circuit (R70). -/
def isCircuitOp : Instr → Bool
  | .cycReset _ _ => true
  | .cycUpdate _ => true
  | .cycHold _ => true
  | .combEval _ _ => true
  | _ => false

/-! ## Tuples and configurations -/

/-- One field of a tuple is in its legal range (R5, R100). -/
def FieldOk (r : RawTuple) : ConfigField → Prop
  | .w => ∃ w : Int, r.w = .int w ∧ 1 ≤ w
  | .poly => ∃ w v : Int, r.w = .int w ∧ r.poly = .int v ∧ 0 ≤ v ∧ v < 2 ^ w.toNat
  | .n => r.n = none ∨ ∃ n : Int, r.n = some (.int n) ∧ 1 ≤ n
  | .refin => (∃ b, r.refin = .bool b) ∨ r.refin = .int 0 ∨ r.refin = .int 1
  | .refout => (∃ b, r.refout = .bool b) ∨ r.refout = .int 0 ∨ r.refout = .int 1
  | .init => ∃ w v : Int, r.w = .int w ∧ r.init = .int v ∧ 0 ≤ v ∧ v < 2 ^ w.toNat
  | .xorout => ∃ w v : Int, r.w = .int w ∧ r.xorout = .int v ∧ 0 ≤ v ∧ v < 2 ^ w.toNat
  | .mode => r.mode = .name "BARE" ∨ r.mode = .name "FULL"

/-- The tuple that spells a configuration, with every field given. -/
def rawOf (c : Config) : RawTuple :=
  ⟨.int c.w, .int c.poly, some (.int c.n), .bool c.refin, .bool c.refout, .int c.init, .int c.xorout,
    .name (match c.mode with | .bare => "BARE" | .full => "FULL")⟩

/-- The error state of a run whose RESOLVE names a field. -/
def configStage (f : ConfigField) : Stage := .failed (.config (configError f))

/-- The circuit of a configuration: the unrolled equations, and the outputs of its mode (R2, R152, R153). -/
def circuitOf (c : Config) : Circuit :=
  ⟨c, unroll c, match c.mode with
    | .bare => outmap c (unroll c)
    | .full => outmap c (idVector c.w)⟩

/-! ## Running -/

/-- Run instructions one after another, stopping at the first that gives no next state. -/
def execAll : List Instr → State → Answer
  | [], s => .next s
  | i :: l, s =>
    match exec i s with
    | .next t => execAll l t
    | .fault f => .fault f
    | .refused r => .refused r

/-- One edge of a full module without a reset: an update or a hold (R178). -/
inductive Edge where
  | update (w : Nat)
  | hold (w : Nat)
  deriving DecidableEq, Repr

/-- The instruction of an edge. -/
def edgeInstr : Edge → Instr
  | .update w => .cycUpdate w
  | .hold w => .cycHold w

/-- The `CYC` word of an edge. -/
def edgeInput : Edge → HostInput
  | .update w => .op (cycWord false true w)
  | .hold w => .op (cycWord false false w)

/-- The word on `data_in` at an edge. -/
def edgeData : Edge → Nat
  | .update w => w
  | .hold w => w

/-- The words absorbed, in order. -/
def absorbed : List Edge → List Nat
  | [] => []
  | .update w :: l => w :: absorbed l
  | .hold _ :: l => absorbed l

/-- The program of a whole run on a tuple whose configuration is `c`, written out: the operations of GENERATE one by
one (R155, program P5a). -/
def pipelineProgram (r : RawTuple) (c : Config) : List Instr :=
  [.resolve (.lit r), .unroll, .outmap .held] ++
  (List.range c.w).map (fun k => .canon (.svAt k)) ++
  (List.range c.w).map (fun j => .canon (.ovAt j)) ++
  [.checkLen .held .held,
    match c.mode with
    | .bare => .emitBare .held .held
    | .full => .emitFull .held]

end Sys2Proof.Machine
end

