-- ==== Sys2Proof/Certificates/Slice0/Obligations.lean ====
section
/-! DEFINITION. The statements about the machine, for the provers. Each docstring names the rule of the spec it
formalises; where a clause rests on a choice of the model, it names the assumption log's entry. -/

open Sys2Proof Sys2Proof.Machine

/-! ## Reset, fetching and decoding -/

/-- R230: what stands in the machine before any invocation and with no circuit: `START`, no configuration, the
StateVector's initial value, position 0, no output vector, no text, a register and a `crc_out` without a value.
The model's choices here: the vector is none until the simulation starts (notes/assumptions/17.md) and then reads as the
identity vector (notes/assumptions/5.md); no text is notes/assumptions/17.md too. -/
def Obligations.ResetHoldsInitialValues : Prop :=
  State.reset.stage = .start ∧ State.reset.cfg = none ∧ State.reset.sv = none ∧
  (∀ c : Config, State.reset.svNow c = idVector c.w) ∧ State.reset.pos = 0 ∧ State.reset.ov = none ∧
  State.reset.text = none ∧ State.reset.stateReg = none ∧ State.reset.crcOut = none

/-- One step on an operation word that decodes to a well-formed instruction is that instruction's meaning, in the
state without the word. There is no program counter to advance (R29, R34). -/
def Obligations.StepRunsDecodedInstruction : Prop :=
  ∀ (s : State) (x : OpWord) (l : List HostInput) (wd : Widths) (i : Instr),
    s.pending = .op x :: l → s.widthsFor x.fmt = some wd → decode wd x = .ok i →
    s.neverReached x.fmt i = false → i.wellFormed wd = true →
    step s = exec i (s.setPending l)

/-- What a step does when it runs no instruction: nothing is pending; the host reads the register or the CRC (R179,
R180); the format's agent does not exist; the word spells no operation; the operation belongs to a run that has ended
in an error; an operand is not legal. A word with a bit above its format's length (R70) spells no operation. The
model's own choices here are notes/assumptions/2.md, 4.md, 14.md (the missing agent), 21.md and 24.md. -/
def Obligations.StepWithoutInstruction : Prop :=
  (∀ s : State, s.pending = [] → step s = .next s) ∧
  (∀ (s : State) (l : List HostInput),
    (s.pending = .readState :: l → step s = readStateReg (s.setPending l)) ∧
    (s.pending = .readCrc :: l → step s = readCrcOut (s.setPending l))) ∧
  (∀ (s : State) (x : OpWord) (l : List HostInput), s.pending = .op x :: l →
    (s.widthsFor x.fmt = none → step s = .refused (noAgent x.fmt)) ∧
    (∀ wd, s.widthsFor x.fmt = some wd →
      (∀ e, decode wd x = .bad e → step s = .refused (.undecodable e)) ∧
      (∀ i, decode wd x = .ok i →
        (s.neverReached x.fmt i = true → step s = .next (s.setPending l)) ∧
        (s.neverReached x.fmt i = false → i.wellFormed wd = false →
          step s = .refused .illFormedOperand)))) ∧
  (∀ (wd : Widths) (x : OpWord), 2 ^ formatBits wd x.fmt ≤ x.word →
    decode wd x = .bad (.wordTooWide x.fmt x.word))

/-- R74: the opcode map of the three formats. -/
def Obligations.OpcodeMapDecodes : Prop :=
  ∀ (wd : Widths) (a : GenArgs),
    decode wd ⟨.gen, 0x0, a⟩ = .ok (.resolve a.raw) ∧
    decode wd ⟨.gen, 0x1, a⟩ = .ok (.termXor a.t a.u) ∧
    decode wd ⟨.gen, 0x2, a⟩ = .ok (.symStep a.sv a.j) ∧
    decode wd ⟨.gen, 0x3, a⟩ = .ok .unroll ∧
    decode wd ⟨.gen, 0x4, a⟩ = .ok (.outmap a.sv) ∧
    decode wd ⟨.gen, 0x5, a⟩ = .ok (.canon a.canonOf) ∧
    decode wd ⟨.gen, 0x6, a⟩ = .ok (.checkLen a.csv a.cov) ∧
    decode wd ⟨.gen, 0x7, a⟩ = .ok (.emitBare a.csv a.cov) ∧
    decode wd ⟨.gen, 0x8, a⟩ = .ok (.emitFull a.csv) ∧
    decode wd ⟨.gen, 0x9, a⟩ = .ok (.generate a.raw) ∧
    decode wd ⟨.gen, 0xA, a⟩ = .ok (.eval a.evalOf a.s a.d) ∧
    (∀ op, 0xB ≤ op → op ≤ 0xF → decode wd ⟨.gen, op, a⟩ = .bad (.reservedOp op)) ∧
    (∀ (data : Nat) (rst en : Bool), data < 2 ^ wd.n →
      decode wd ⟨.cyc, data * 4 + rst.toNat * 2 + en.toNat, a⟩ =
        .ok (if rst then .cycReset en data else if en then .cycUpdate data else .cycHold data)) ∧
    (∀ x y : Nat, x < 2 ^ wd.w → y < 2 ^ wd.n →
      decode wd ⟨.comb, x * 2 ^ wd.n + y, a⟩ = .ok (.combEval x y))

/-- R77: the reserved op codes are refused by name, a refusal and neither a fault nor a no-op. There is no hint and
no custom space: every other word of each format spells one of its operations. -/
def Obligations.ReservedOpcodesAreRefused : Prop :=
  (∀ (s : State) (op : Nat) (a : GenArgs) (l : List HostInput), 0xB ≤ op → op ≤ 0xF →
    s.pending = .op ⟨.gen, op, a⟩ :: l → step s = .refused (.undecodable (.reservedOp op))) ∧
  (∀ (wd : Widths) (op : Nat) (a : GenArgs), op < 0xB →
    ∃ i, decode wd ⟨.gen, op, a⟩ = .ok i ∧ isCircuitOp i = false) ∧
  (∀ (wd : Widths) (v : Nat) (a : GenArgs), v < 2 ^ (wd.n + 2) →
    ∃ d, d < 2 ^ wd.n ∧ (decode wd ⟨.cyc, v, a⟩ = .ok (.cycHold d) ∨ decode wd ⟨.cyc, v, a⟩ = .ok (.cycUpdate d) ∨
      ∃ en, decode wd ⟨.cyc, v, a⟩ = .ok (.cycReset en d))) ∧
  (∀ (wd : Widths) (v : Nat) (a : GenArgs), v < 2 ^ (wd.w + wd.n) →
    ∃ x y, decode wd ⟨.comb, v, a⟩ = .ok (.combEval x y))

/-- R78: every `CYC` word and every `COMB` word is legal, and a `CYC` word with `rst = 1` ignores `data` and `en`.
Encoding what was decoded gives the word back, so no bit of it is lost. -/
def Obligations.EveryCycAndCombWordIsLegal : Prop :=
  (∀ (wd : Widths) (v : Nat), v < 2 ^ (wd.n + 2) →
    ∃ i, decode wd ⟨.cyc, v, {}⟩ = .ok i ∧ i.wellFormed wd = true ∧ encode wd i = ⟨.cyc, v, {}⟩) ∧
  (∀ (wd : Widths) (v : Nat), v < 2 ^ (wd.w + wd.n) →
    ∃ i, decode wd ⟨.comb, v, {}⟩ = .ok i ∧ i.wellFormed wd = true ∧ encode wd i = ⟨.comb, v, {}⟩) ∧
  (∀ (s : State) (e e' : Bool) (d d' : Nat), exec (.cycReset e d) s = exec (.cycReset e' d') s)

/-- Decoding the encoding of a well-formed instruction gives the instruction back, for every constructor and every
operand its encoding admits. -/
def Obligations.DecodeOfEncodeIsIdentity : Prop :=
  ∀ (wd : Widths) (i : Instr), i.wellFormed wd = true → decode wd (encode wd i) = .ok i

/-- A few words written out from the encodings of R71 to R73 decode to the instructions they stand for: vectors of
programs P1, P2 and P3, and a `COMB` word of V190. -/
def Obligations.WrittenOutWordsDecode : Prop :=
  decode ⟨32, 8⟩ ⟨.cyc, 0x0C5, {}⟩ = .ok (.cycUpdate 0x31) ∧
  decode ⟨16, 8⟩ ⟨.cyc, 0x157, {}⟩ = .ok (.cycReset true 0x55) ∧
  decode ⟨16, 8⟩ ⟨.cyc, 0x264, {}⟩ = .ok (.cycHold 0x99) ∧
  decode ⟨3, 1⟩ ⟨.comb, 0xB, {}⟩ = .ok (.combEval 5 1) ∧
  decode ⟨3, 1⟩ ⟨.gen, 0x3, {}⟩ = .ok .unroll ∧
  decode ⟨3, 1⟩ ⟨.gen, 0xB, {}⟩ = .bad (.reservedOp 0xB)

/-! ## The Config Resolver -/

/-- R103 (derived there from R100): a resolved configuration exists exactly when every field is in range, and it is
then a valid one that holds the tuple's values: the integers as they are, `N` omitted as 8 (R104), a Boolean flag or 0
for false and 1 for true (R20), and the mode of the name.
That a flag may be given as the integer 0 or 1 (FieldOk) is the model's reading (notes/assumptions/11.md). -/
def Obligations.ResolveSucceedsExactlyInRange : Prop :=
  ∀ r : RawTuple,
    ((∃ c, resolveTuple r = .ok c) ↔ ∀ f : ConfigField, FieldOk r f) ∧
    (∀ c, resolveTuple r = .ok c → c.Valid ∧
      r.w = .int c.w ∧ r.poly = .int c.poly ∧
      (r.n = some (.int c.n) ∨ (r.n = none ∧ c.n = 8)) ∧
      (r.refin = .bool c.refin ∨ r.refin = .int (if c.refin then 1 else 0)) ∧
      (r.refout = .bool c.refout ∨ r.refout = .int (if c.refout then 1 else 0)) ∧
      r.init = .int c.init ∧ r.xorout = .int c.xorout ∧
      r.mode = .name (match c.mode with | .bare => "BARE" | .full => "FULL"))

/-- R204: of several illegal fields, the error names the first in the order of their numbers.
That a flag may be given as the integer 0 or 1 (FieldOk) is the model's reading (notes/assumptions/11.md). -/
def Obligations.ResolveNamesFirstIllegalField : Prop :=
  ∀ (r : RawTuple) (f : ConfigField),
    resolveTuple r = .bad f ↔ ¬ FieldOk r f ∧ ∀ g, fieldCode g < fieldCode f → FieldOk r g

/-- R100, R101: RESOLVE of the tuple of a valid configuration, given with the operation or held, returns that
configuration, and `N` omitted is 8 (R104). It begins a run: of the generator's registers nothing earlier is left;
the circuit, its register and the host's side are untouched.
That a held tuple may be resolved again is the model's choice (notes/assumptions/4.md). -/
def Obligations.ResolveConfiguresLegalTuple : Prop :=
  ∀ (s : State) (c : Config) (r : RawTuple) (src : Src RawTuple), c.Valid →
    (r = rawOf c ∨ (c.n = 8 ∧ r = { rawOf c with n := none })) →
    (src = .lit r ∨ (src = .held ∧ s.raw = some r)) →
    exec (.resolve src) s = .next
      { s with
        raw := some r
        stage := .configured
        cfg := some c
        sv := none
        pos := 0
        ov := none
        result := some (.config c)
        text := none }

/-- R200, R202: where a field is illegal, RESOLVE ends the run in `FAILED(ConfigError)` with the field's number, name
and range as the table of R200 gives them, without a configuration and without text; GENERATE does the same and
nothing more.
That an error is a next state is the model's reading (notes/assumptions/6.md). -/
def Obligations.IllegalTupleEndsTheRun : Prop :=
  (∀ (s : State) (r : RawTuple) (f : ConfigField), resolveTuple r = .bad f →
    exec (.generate (.lit r)) s = exec (.resolve (.lit r)) s ∧
    exec (.resolve (.lit r)) s = .next
      { s with
        raw := some r
        stage := .failed (.config ⟨fieldCode f, fieldName f, fieldRange f⟩)
        cfg := none
        sv := none
        pos := 0
        ov := none
        result := some (.error (.config ⟨fieldCode f, fieldName f, fieldRange f⟩))
        text := none }) ∧
  (∀ f : ConfigField, (fieldCode f, fieldName f, fieldRange f) = match f with
    | .w => (0, "W", ">= 1")
    | .poly => (1, "POLY", "0 .. 2^W - 1")
    | .n => (2, "N", ">= 1")
    | .refin => (3, "REFIN", "false, true")
    | .refout => (4, "REFOUT", "false, true")
    | .init => (5, "INIT", "0 .. 2^W - 1")
    | .xorout => (6, "XOROUT", "0 .. 2^W - 1")
    | .mode => (7, "MODE", "BARE, FULL"))

/-- R101, R233: RESOLVE is the first operation of every run, so before it no operation that works under a
configuration has one, and each is refused by name (notes/assumptions/10.md); so is a circuit operation or a read without its
circuit (R33, R170).
The refusals of a missing circuit are the model's choice (notes/assumptions/14.md). -/
def Obligations.OperationsNeedConfigOrCircuit : Prop :=
  (∀ (s : State) (i : Instr), s.cfg = none → isCircuitOp i = false → beginsWithResolve i = false →
    exec i s = .refused .noConfig) ∧
  (∀ (s : State) (en : Bool) (x : Nat), s.fullModule = none →
    exec (.cycReset en x) s = .refused .noFullModule ∧ exec (.cycUpdate x) s = .refused .noFullModule ∧
    exec (.cycHold x) s = .refused .noFullModule ∧ readStateReg s = .refused .noFullModule ∧
    readCrcOut s = .refused .noFullModule) ∧
  (∀ (s : State) (x y : Nat), s.bareLogic = none → exec (.combEval x y) s = .refused .noBareLogic)

/-- R202, R203 and program P5b: after RESOLVE has raised, the further operations of the run, those that do not bring
a tuple of their own, are never reached: the run stays failed, without text.
That what is not reached is skipped is the model's reading (notes/assumptions/4.md). -/
def Obligations.FailedRunReachesNothingMore : Prop :=
  ∀ (s : State) (r : RawTuple) (f : ConfigField) (l : List OpWord), resolveTuple r = .bad f →
    (∀ x ∈ l, x.fmt = .gen ∧ ∃ i, decode ⟨0, 0⟩ x = .ok i ∧ i.startsRun = false) →
    s.pending = .op (encode ⟨0, 0⟩ (.resolve (.lit r))) :: l.map .op →
    ∃ t : State, Host.Core.run Sys2Proof.core (l.length + 1) s = .next t ∧
      t.stage = configStage f ∧ t.text = none ∧ t.cfg = none ∧ t.pending = []

/-! ## The symbolic simulator -/

/-- R110: TERM_XOR returns the symmetric difference of its operands, in packed form their bitwise XOR, and writes
nothing else. It is commutative and associative, `T ⊕ T` is empty and `T ⊕ {}` is `T`. -/
def Obligations.TermXorIsSymmetricDifference : Prop :=
  ∀ (s : State) (c : Config) (t u : TermSrc), s.cfg = some c →
    exec (.termXor t u) s =
      .next { s with result := some (.term (readTerm c s t ^^^ readTerm c s u)) } ∧
    (∀ m : Symbol, m ∈ members c.widths (readTerm c s t ^^^ readTerm c s u) ↔
      ¬ (m ∈ members c.widths (readTerm c s t) ↔ m ∈ members c.widths (readTerm c s u))) ∧
    (∀ a b e : XorTerm, termXor a a = 0 ∧ termXor a 0 = a ∧ termXor a b = termXor b a ∧
      termXor (termXor a b) e = termXor a (termXor b e))

/-- The forms of an XorTerm operand (R10, R24, R26): the packed number, with `S_i` at bit `i` and `D_j` at bit `W + j`,
Symbols written out, where equal Symbols cancel, and an element of the held StateVector, which is the identity vector until the simulation has written it
(notes/assumptions/5.md). -/
def Obligations.TermOperandForms : Prop :=
  ∀ (s : State) (c : Config),
    (∀ v : XorTerm, readTerm c s (.packed v) = v ∧
      (∀ i, .state i ∈ members c.widths v ↔ i < c.w ∧ v.testBit i = true) ∧
      (∀ j, .input j ∈ members c.widths v ↔ j < c.n ∧ v.testBit (c.w + j) = true)) ∧
    (∀ (l : SymbolList) (m : Symbol), l.all (Symbol.legal c.widths) = true →
      (m ∈ members c.widths (readTerm c s (.syms l)) ↔ m.legal c.widths = true ∧ l.count m % 2 = 1)) ∧
    (∀ (v : StateVector) (k : Nat), s.sv = some v → (h : k < v.length) → readTerm c s (.svAt k) = v[k]) ∧
    (∀ k, s.sv = none → k < c.w → members c.widths (readTerm c s (.svAt k)) = [.state k])

/-- R113: SYM_STEP on a given StateVector and input index puts at position 0 the feedback exactly where tap 0 is
set, and at position `k` the old element `k-1`, XOR-ed with the feedback where tap `k` is set; the feedback is
the old top element and `D_j` (R111). The position advances by one and never passes `N` (R29). Nothing else is
written.
That the position stays at `N` is the model's reading (notes/assumptions/5.md). -/
def Obligations.SymStepIsOneLfsrStep : Prop :=
  ∀ (s : State) (c : Config) (sv : StateVector) (j : Nat), s.cfg = some c → c.Valid →
    vectorLegal c.widths sv = true → j < c.n →
    ∃ v : StateVector,
      exec (.symStep (.lit sv) (.lit j)) s =
        .next { s with
          sv := some v
          pos := if s.pos < c.n then s.pos + 1 else s.pos
          result := some (.stateVector v) } ∧
      v.length = c.w ∧
      v.getD 0 0 = (if c.poly.testBit 0 then sv.getD (c.w - 1) 0 ^^^ 2 ^ (c.w + j) else 0) ∧
      (∀ k, k + 1 < c.w →
        v.getD (k + 1) 0 = sv.getD k 0 ^^^
          (if c.poly.testBit (k + 1) then sv.getD (c.w - 1) 0 ^^^ 2 ^ (c.w + j) else 0))

/-- R29, R112: SYM_STEP of the held operands steps the simulation's own vector over the next input bit of the
processing order, the last bit first unless reflect-input is set; when all `N` bits are consumed there is no next
bit (notes/assumptions/23.md). -/
def Obligations.SymStepFollowsProcessingOrder : Prop :=
  ∀ (s : State) (c : Config), s.cfg = some c →
    (s.pos < c.n → exec (.symStep .held .held) s =
      exec (.symStep (.lit (s.svNow c)) (.lit (if c.refin then s.pos else c.n - 1 - s.pos))) s) ∧
    (c.n ≤ s.pos → exec (.symStep .held .held) s = .refused .noInputLeft)

/-- R114: UNROLL is the repetition of SYM_STEP over all `N` input bits, from the identity vector.
That the held vector reads as the identity vector before its first step is the model's reading (notes/assumptions/5.md). -/
def Obligations.UnrollEqualsItsSteps : Prop :=
  ∀ (s : State) (c : Config), s.cfg = some c → 1 ≤ c.n → s.sv = none → s.pos = 0 →
    exec .unroll s = execAll (List.replicate c.n (.symStep .held .held)) s

/-- R119 (derived there by induction on the unroll position): UNROLL completes, and the equations it returns are
exact: their value on any register value and any input word is the bit-serial reference's. It writes the vector,
the position (to `N`, R29) and its result, and nothing else. -/
def Obligations.UnrollIsExact : Prop :=
  ∀ (s : State) (c : Config), s.cfg = some c → c.Valid →
    ∃ v : StateVector,
      exec .unroll s =
        .next { s with sv := some v, pos := c.n, result := some (.stateVector v) } ∧
      v.length = c.w ∧
      ∀ (x y k : Nat), x < 2 ^ c.w → y < 2 ^ c.n → k < c.w →
        evalTerm c.widths (v.getD k 0) x y = (serial c x y).testBit k

/-- R115 (derived there): unrolling composes over any split of the processing order, and one `N`-bit word moves the
register as its bits do, one per cycle of a 1-bit circuit, in the processing order. -/
def Obligations.UnrollingComposes : Prop :=
  (∀ (c : Config) (a b : List Nat), procOrder c.n c.refin = a ++ b →
    unroll c = unrollFrom c (unrollFrom c (idVector c.w) a) b) ∧
  (∀ (c : Config) (x y : Nat), c.Valid → x < 2 ^ c.w → y < 2 ^ c.n →
    next c x y = (procOrder c.n c.refin).foldl (fun v j => next { c with n := 1 } v (y.testBit j).toNat) x)

/-- R121 (derived there): the degenerate configurations are a plain shift register, a parity and a constant. -/
def Obligations.DegenerateConfigurations : Prop :=
  (∀ c : Config, c.Valid → c.poly = 0 →
    ∀ k, k < c.w → (unroll c).getD k 0 = if c.n ≤ k then 2 ^ (k - c.n) else 0) ∧
  (∀ c : Config, c.Valid → c.w = 1 → c.poly = 1 →
    (unroll c).length = 1 ∧ members c.widths ((unroll c).getD 0 0) = allSymbols c.widths) ∧
  (∀ c : Config, c.Valid → c.w = 1 → c.poly = 0 → unroll c = [0])

/-- R122, first point (derived there): the next state is linear over GF(2). -/
def Obligations.NextStateIsLinear : Prop :=
  ∀ (c : Config) (x x' y y' : Nat),
    next c (x ^^^ x') (y ^^^ y') = next c x y ^^^ next c x' y' ∧ next c 0 0 = 0

/-- R122, second and third point (derived there): the STATE Symbols of an equation depend on `W`, `POLY` and `N`
alone, and reflecting the input only renames `D_j` to `D_{N-1-j}`. -/
def Obligations.ReflectInputRenamesInputs : Prop :=
  ∀ (c c' : Config) (k : Nat), c.w = c'.w → c.poly = c'.poly → c.n = c'.n → k < c.w →
    (∀ i, i < c.w → ((unroll c).getD k 0).testBit i = ((unroll c').getD k 0).testBit i) ∧
    (c.refin = false → c'.refin = true → ∀ j, j < c.n →
      ((unroll c').getD k 0).testBit (c.w + j) = ((unroll c).getD k 0).testBit (c.w + (c.n - 1 - j)))

/-- R144 (derived there): the final StateVector has exactly `W` terms over legal Symbols, and canonicalization
leaves each without a duplicate and in the canonical order, its members listed, stating the same equation. -/
def Obligations.UnrolledTermsAreCanonicalizable : Prop :=
  ∀ c : Config, c.Valid →
    (unroll c).length = c.w ∧ (canonVec c.widths (unroll c)).length = c.w ∧
    (∀ l ∈ canonVec c.widths (unroll c), l.Nodup ∧ canonLegal c.widths l = true) ∧
    canonVec c.widths (unroll c) = (unroll c).map (members c.widths) ∧
    packVec c.widths (canonVec c.widths (unroll c)) = unroll c

/-- R117: OUTMAP takes output bit `j` from position `W-1-j` where reflect-output is set and from `j` where it is not,
with bit `j` of the output mask as its constant; it writes the output vector and its result only.
The held operand is the model's (notes/assumptions/3.md and 5.md). -/
def Obligations.OutmapMapsPositions : Prop :=
  ∀ (s : State) (c : Config) (src : Src StateVector) (v : StateVector), s.cfg = some c →
    (src = .lit v ∨ (src = .held ∧ s.svNow c = v)) →
    ∃ ov : OutVector,
      exec (.outmap src) s = .next { s with ov := some ov, result := some (.outVector ov) } ∧
      ov.length = c.w ∧
      ∀ (j : Nat) (h : j < ov.length),
        ov[j] = ⟨v.getD (if c.refout then c.w - 1 - j else j) 0, c.xorout.testBit j⟩

/-- R117's numeric form and R172: the output terms of the unrolled equations have the value of `post(next)`. -/
def Obligations.OutputTermsEqualPostOfNext : Prop :=
  ∀ (c : Config) (x y : Nat), c.Valid →
    outValue c.widths (outmap c (unroll c)) x y = post c (next c x y) ∧
    ∀ j, j < c.w →
      evalOut c.widths ((outmap c (unroll c)).getD j ⟨0, false⟩) x y = (post c (next c x y)).testBit j

/-- R9, R55 and R117: `post` reflects first and applies the mask at the output positions. -/
def Obligations.PostReflectsThenMasks : Prop :=
  ∀ (c : Config) (v j : Nat), c.Valid → v < 2 ^ c.w →
    post c v < 2 ^ c.w ∧
    (j < c.w → (post c v).testBit j =
      ((if c.refout then v.testBit (c.w - 1 - j) else v.testBit j) ^^ c.xorout.testBit j))

/-- R118: EVAL of a term is the parity of the number of its members whose bit is set, XOR-ed with the constant of an
OutTerm; it writes its result only. The bit of `S_i` is bit `i` of `s`, that of `D_j` bit `j` of `d`. The empty term
is 0 everywhere, every term is 0 on zeros, and the value of a term is linear. -/
def Obligations.EvalIsParityOfSetMembers : Prop :=
  ∀ (s : State) (c : Config) (e : EvalSrc) (t : XorTerm) (k : Bool) (x y : Nat), s.cfg = some c →
    ((∃ q, e = .term q ∧ readTerm c s q = t ∧ k = false) ∨ (∃ q, e = .out q k ∧ readTerm c s q = t) ∨
      (∃ j v, e = .ovAt j ∧ s.ov = some v ∧ v[j]? = some ⟨t, k⟩)) →
    exec (.eval e x y) s =
      .next { s with result := some (.bit
        (((members c.widths t).countP (fun m => match m with
          | .state i => x.testBit i
          | .input j => y.testBit j) % 2 == 1) ^^ k)) } ∧
    evalTerm c.widths 0 x y = false ∧ evalTerm c.widths t 0 0 = false ∧
    (∀ x' y' : Nat, evalTerm c.widths t (x ^^^ x') (y ^^^ y') =
      (evalTerm c.widths t x y ^^ evalTerm c.widths t x' y'))

/-! ## The canonicalizer -/

/-- R140, R141: CANON of a list keeps exactly the legal Symbols that occur an odd number of times, once each, every
STATE Symbol before every INPUT Symbol and each ascending; the constant of an OutTerm is kept; nothing but the
result is written. It is idempotent, and a list of legal Symbols without repeats is only sorted. -/
def Obligations.CanonSortsOddSymbols : Prop :=
  ∀ (s : State) (c : Config) (l : SymbolList) (k : Bool), s.cfg = some c →
    ∃ q : SymbolList,
      exec (.canon (.list l)) s = .next { s with result := some (.canonTerm q) } ∧
      exec (.canon (.out l k)) s = .next { s with result := some (.canonOut ⟨q, k⟩) } ∧
      (∀ m, m ∈ q ↔ m.legal c.widths = true ∧ l.count m % 2 = 1) ∧
      q.Nodup ∧ q.Pairwise (fun a b => match a, b with
        | .state i, .state j => i < j
        | .state _, .input _ => True
        | .input _, .state _ => False
        | .input i, .input j => i < j) ∧
      exec (.canon (.list q)) s = .next { s with result := some (.canonTerm q) } ∧
      (l.Nodup → (∀ m ∈ l, m.legal c.widths = true) → q.Perm l)

/-- R143 and R140: CANON of an element of a held vector, a term without repeats, returns its members in the canonical
order, with the constant of an output term.
The vector that is not yet written is the model's reading (notes/assumptions/5.md). -/
def Obligations.CanonOfHeldElements : Prop :=
  ∀ (s : State) (c : Config) (k : Nat), s.cfg = some c →
    (∀ v : StateVector, s.sv = some v → k < v.length →
      exec (.canon (.svAt k)) s =
        .next { s with result := some (.canonTerm (members c.widths (v.getD k 0))) }) ∧
    (s.sv = none → k < c.w →
      exec (.canon (.svAt k)) s = .next { s with result := some (.canonTerm [.state k]) }) ∧
    (∀ (v : OutVector) (o : OutTerm), s.ov = some v → v[k]? = some o →
      exec (.canon (.ovAt k)) s =
        .next { s with result := some (.canonOut ⟨members c.widths o.term, o.const⟩) })

/-- R142: CHECK_LEN returns unit when both vectors have `W` elements, and writes nothing but its result. -/
def Obligations.CheckLenPassesFullLength : Prop :=
  ∀ (s : State) (c : Config) (sv : List SymbolList) (ov : List OutList), s.cfg = some c →
    sv.length = c.w → ov.length = c.w →
    exec (.checkLen (.lit sv) (.lit ov)) s = .next { s with result := some .unit }

/-- R142, R201, R202: on any other length CHECK_LEN ends the run in progress with an InternalInvariantError of code
16 that records both lengths and `W`, and no text; a run that has ended raises no more (notes/assumptions/20.md). -/
def Obligations.CheckLenRaisesOnOtherLength : Prop :=
  ∀ (s : State) (c : Config) (sv : List SymbolList) (ov : List OutList), s.cfg = some c →
    (sv.length ≠ c.w ∨ ov.length ≠ c.w) →
    (s.stage = .configured → exec (.checkLen (.lit sv) (.lit ov)) s =
      .next { s with
        stage := .failed (.internal ⟨16, sv.length, ov.length, c.w⟩)
        result := some (.error (.internal ⟨16, sv.length, ov.length, c.w⟩))
        text := none }) ∧
    (s.stage = .done → exec (.checkLen (.lit sv) (.lit ov)) s = .refused .runEnded)

/-- R142 and R201 (derived there): under the rules the check never fires. After UNROLL and OUTMAP, CHECK_LEN passes
and the stage is untouched. -/
def Obligations.LengthCheckNeverFires : Prop :=
  ∀ (s : State) (c : Config), s.cfg = some c →
    ∃ t : State, execAll [.unroll, .outmap .held, .checkLen .held .held] s = .next t ∧
      t.result = some .unit ∧ t.stage = s.stage

/-! ## The emitter -/

/-- R152: EMIT_BARE of a `BARE` configuration emits one line per next-state bit and then one per output bit,
ascending, each ended by a line feed (R154); a term is its signal names in order (R150), then the constant 1 where it
is set, joined by ` ^ ` in parentheses, or the constant 0 where there is no item (R151). The stage is `DONE` (R28), and the circuit of the text has exactly those equations and no register
(notes/assumptions/7.md). -/
def Obligations.EmitBareWritesItsLines : Prop :=
  let ln : Text → Text := fun x => x ++ ['\n']
  let name : Symbol → Text := fun m => match m with
    | .state i => "state_in[".toList ++ decimal i ++ "]".toList
    | .input j => "data_in[".toList ++ decimal j ++ "]".toList
  let items : SymbolList → Bool → List Text := fun l k => l.map name ++ if k then ["1'b1".toList] else []
  let term : SymbolList → Bool → Text := fun l k =>
    if items l k = [] then "1'b0".toList else "(".toList ++ " ^ ".toList.intercalate (items l k) ++ ")".toList
  ∀ (s : State) (c : Config) (sv : List SymbolList) (ov : List OutList), s.cfg = some c →
    c.mode = .bare → s.runFailed = false → sv.length = c.w → ov.length = c.w →
    ∃ t : Text,
      exec (.emitBare (.lit sv) (.lit ov)) s = .next
        { s with
          stage := .done
          result := some (.text t)
          text := some t
          circuit := some ⟨c, sv.map (packSyms c.widths), ov.map fun o => ⟨packSyms c.widths o.syms, o.const⟩⟩
          stateReg := none } ∧
      t = ((List.range c.w).map fun k => ln ("assign ".toList ++ "state_out".toList ++ "[".toList ++
            decimal k ++ "] = ".toList ++ term (sv.getD k []) false ++ ";".toList)).flatten ++
          ((List.range c.w).map fun j => ln ("assign ".toList ++ "crc_out".toList ++ "[".toList ++
            decimal j ++ "] = ".toList ++
            term (ov.getD j ⟨[], false⟩).syms (ov.getD j ⟨[], false⟩).const ++ ";".toList)).flatten

/-- R153: EMIT_FULL of a `FULL` configuration emits the module: ports, register, one line per next-state bit, the
clocked block with reset to `INIT` and enable, and one line per output bit, each the register bit its position
maps to and the constant of the mask; every line ends with a line feed (R154). A next-state term is its signal names
in order (R150), joined by ` ^ ` in parentheses, or the constant 0 where it is empty (R151).
That a lone EMIT_FULL ends the run and installs the circuit is the model's reading (notes/assumptions/7.md). -/
def Obligations.EmitFullWritesTheModule : Prop :=
  let ln : Text → Text := fun x => x ++ ['\n']
  let name : Symbol → Text := fun m => match m with
    | .state i => "state_reg[".toList ++ decimal i ++ "]".toList
    | .input j => "data_in[".toList ++ decimal j ++ "]".toList
  let term : SymbolList → Text := fun l =>
    if l = [] then "1'b0".toList else "(".toList ++ " ^ ".toList.intercalate (l.map name) ++ ")".toList
  let bus : Nat → Text := fun n => "[".toList ++ decimal (n - 1) ++ ":0]".toList
  ∀ (s : State) (c : Config) (sv : List SymbolList), s.cfg = some c → c.Valid →
    c.mode = .full → s.runFailed = false → sv.length = c.w →
    ∃ t : Text,
      exec (.emitFull (.lit sv)) s = .next
        { s with
          stage := .done
          result := some (.text t)
          text := some t
          circuit := some ⟨c, sv.map (packSyms c.widths), outmap c (idVector c.w)⟩
          stateReg := none } ∧
      t = (ln "module crc (".toList ++
            ln "    input  wire clk,".toList ++
            ln "    input  wire rst,".toList ++
            ln ("    input  wire ".toList ++ bus c.n ++ " data_in,".toList) ++
            ln "    input  wire data_en,".toList ++
            ln ("    output wire ".toList ++ bus c.w ++ " crc_out".toList) ++
            ln ");".toList ++
            ln ("reg  ".toList ++ bus c.w ++ " state_reg;".toList) ++
            ln ("wire ".toList ++ bus c.w ++ " state_out;".toList)) ++
          ((List.range c.w).map fun k => ln ("assign ".toList ++ "state_out".toList ++ "[".toList ++
            decimal k ++ "] = ".toList ++ term (sv.getD k []) ++ ";".toList)).flatten ++
          (ln "always @(posedge clk) begin".toList ++
            ln ("    if (rst) state_reg <= ".toList ++
              (decimal c.w ++ "'h".toList ++ hexadecimal ((c.w + 3) / 4) c.init) ++ ";".toList) ++
            ln "    else if (data_en) state_reg <= state_out;".toList ++
            ln "end".toList) ++
          ((List.range c.w).map fun j => ln ("assign ".toList ++ "crc_out".toList ++ "[".toList ++
            decimal j ++ "] = ".toList ++
            ("(".toList ++ name (.state (if c.refout then c.w - 1 - j else j)) ++
              (if c.xorout.testBit j then " ^ ".toList ++ "1'b1".toList else []) ++ ")".toList) ++
            ";".toList)).flatten ++
          ln "endmodule".toList

/-- The Emitter emits only for its own mode (R152, R153), and after an error no text is ever emitted (R202).
The refusals are the model's choice (notes/assumptions/8.md and 20.md). -/
def Obligations.EmitterRefusals : Prop :=
  ∀ (s : State) (c : Config) (sv : Src (List SymbolList)) (ov : List OutList), s.cfg = some c →
    (c.mode = .full → exec (.emitBare sv (.lit ov)) s = .refused .wrongMode) ∧
    (c.mode = .bare → exec (.emitFull sv) s = .refused .wrongMode) ∧
    (s.runFailed = true → c.mode = .bare → exec (.emitBare sv (.lit ov)) s = .refused .runEnded) ∧
    (s.runFailed = true → c.mode = .full → exec (.emitFull sv) s = .refused .runEnded)

/-- R150 and R154: an index is written in decimal without leading zeros, and reading the digits gives it back; a
`W`-bit constant has exactly `ceil(W/4)` lower-case hexadecimal digits, which give the constant back. -/
def Obligations.NumbersReadBack : Prop :=
  (∀ v : Nat, parseNumber (decimal v) = some v ∧ (v ≠ 0 → (decimal v).head? ≠ some '0') ∧
    (∀ ch ∈ decimal v, ch ∈ "0123456789".toList)) ∧
  (∀ w v : Nat, v < 2 ^ w →
    (hexadecimal ((w + 3) / 4) v).length = (w + 3) / 4 ∧
    (∀ ch ∈ hexadecimal ((w + 3) / 4) v, ch ∈ "0123456789abcdef".toList) ∧
    digitsFrom 16 0 (hexadecimal ((w + 3) / 4) v) = some v)

/-- R155: GENERATE of the tuple of a valid configuration completes: the stage is `DONE`, the text is that of the
configuration's mode over the canonical unrolled equations, which is the text the Emitter of that mode gives of their
members (EmitBareWritesItsLines, EmitFullWritesTheModule), and the circuit of the text has exactly the unrolled
equations, its register holding no value (R32). The host's side is untouched.
That the circuit is installed is the model's reading (notes/assumptions/7.md), and so is that the held tuple may be
generated from again in any state, also after `DONE` or `FAILED` (notes/assumptions/4.md). -/
def Obligations.GenerateEmitsTheCircuit : Prop :=
  ∀ (s : State) (c : Config) (src : Src RawTuple), c.Valid →
    (src = .lit (rawOf c) ∨ (src = .held ∧ s.raw = some (rawOf c))) →
    ∃ t : Text,
      exec (.generate src) s = .next
        { s with
          raw := some (rawOf c)
          stage := .done
          cfg := some c
          sv := some (unroll c)
          pos := c.n
          ov := some (outmap c (unroll c))
          result := some (.text t)
          text := some t
          circuit := some (circuitOf c)
          stateReg := none } ∧
      (t = match c.mode with
        | .bare => bareText (canonVec c.widths (unroll c)) (canonOutVec c.widths (outmap c (unroll c)))
        | .full => fullText c (canonVec c.widths (unroll c))) ∧
      ∀ u : State, u.cfg = some c → u.runFailed = false →
        ∃ u' : State, u'.text = some t ∧ exec (match c.mode with
          | .bare => .emitBare (.lit ((unroll c).map (members c.widths)))
              (.lit ((outmap c (unroll c)).map fun o => ⟨members c.widths o.term, o.const⟩))
          | .full => .emitFull (.lit ((unroll c).map (members c.widths)))) u = .next u'

/-- R155: GENERATE of any tuple is its operations, one after another: RESOLVE and, where that succeeds, UNROLL,
OUTMAP, CANON of every term, CHECK_LEN, then the Emitter of the mode; where RESOLVE raises, nothing more.
The model's own choices here are the held operands (notes/assumptions/3.md), CANON that writes nothing back
(notes/assumptions/22.md) and the lone Emitter that ends the run (notes/assumptions/7.md). -/
def Obligations.GenerateEqualsItsOperations : Prop :=
  ∀ (s : State) (r : RawTuple),
    (∀ c, resolveTuple r = .ok c → exec (.generate (.lit r)) s = execAll (pipelineProgram r c) s) ∧
    (∀ f, resolveTuple r = .bad f → exec (.generate (.lit r)) s = exec (.resolve (.lit r)) s)

/-- R156 (derived there) and R203: what a run leaves in the generator is a function of its tuple alone, whatever the
machine did before: two runs with one tuple emit the same text or return the same error. -/
def Obligations.RunIsFunctionOfTuple : Prop :=
  ∀ (s s' t t' : State) (r : RawTuple) (i : Instr), (i = .resolve (.lit r) ∨ i = .generate (.lit r)) →
    exec i s = .next t → exec i s' = .next t' →
    t.text = t'.text ∧ t.stage = t'.stage ∧ t.result = t'.result ∧ t.cfg = t'.cfg ∧ t.sv = t'.sv ∧
    t.pos = t'.pos ∧ t.ov = t'.ov ∧ t.raw = t'.raw

/-! ## The generated circuit -/

/-- R173: at an edge with `rst = 1` the register becomes `INIT`, whatever `data_en` and `data_in` are and whether or
not it held a value; `crc_out` is then `post(INIT)`, a second reset changes nothing, and nothing else changes. No
other operation gives the register a value when it holds none. -/
def Obligations.CycResetLoadsInit : Prop :=
  (∀ (s : State) (ci : Circuit) (en : Bool) (data : Nat), s.fullModule = some ci → data < 2 ^ ci.cfg.n →
    decode ci.cfg.widths ⟨.cyc, data * 4 + 2 + en.toNat, {}⟩ = .ok (.cycReset en data) ∧
    ∃ t : State, t = { s with stateReg := some ci.cfg.init } ∧
      exec (.cycReset en data) s = .next t ∧ t.crcOut = some (post ci.cfg ci.cfg.init) ∧
      exec (.cycReset en data) t = .next t) ∧
  (∀ (i : Instr) (s t : State), exec i s = .next t → s.stateReg = none → t.stateReg ≠ none →
    ∃ e d, i = .cycReset e d)

/-- R174: at an edge with `rst = 0` and `data_en = 1` the register of a configuration's circuit becomes
`next(state, data_in)`, which is the bit-serial CRC of the word (R119, R172); nothing else changes. A register that
holds no value keeps holding none (R32). -/
def Obligations.CycUpdateAbsorbsWord : Prop :=
  ∀ (s : State) (c : Config) (data : Nat), s.circuit = some (circuitOf c) → c.Valid → c.mode = .full →
    data < 2 ^ c.n →
    (∀ v, s.stateReg = some v → v < 2 ^ c.w →
      exec (.cycUpdate data) s = .next { s with stateReg := some (next c v data) } ∧
      next c v data = serial c v data) ∧
    (s.stateReg = none → exec (.cycUpdate data) s = .next s)

/-- R157 and R174: whatever equations the text of a full module states, an update gives register bit `k` the value of
equation `k` on the register and the word. -/
def Obligations.UpdateEvaluatesEveryEquation : Prop :=
  ∀ (s : State) (ci : Circuit) (v data : Nat), s.fullModule = some ci → s.stateReg = some v →
    ∃ v' : Nat, exec (.cycUpdate data) s = .next { s with stateReg := some v' } ∧ v' < 2 ^ ci.cfg.w ∧
      ∀ k, k < ci.cfg.w → v'.testBit k = evalTerm ci.cfg.widths (ci.next.getD k 0) v data

/-- R175: at an edge with `rst = 0` and `data_en = 0` nothing changes, whatever `data_in` is and also while the
register holds no value; so any number of such edges changes nothing. -/
def Obligations.CycHoldKeepsRegister : Prop :=
  ∀ (s : State) (ci : Circuit) (l : List Nat), s.fullModule = some ci → (∀ d ∈ l, d < 2 ^ ci.cfg.n) →
    (∀ d ∈ l, decode ci.cfg.widths ⟨.cyc, d * 4, {}⟩ = .ok (.cycHold d) ∧ exec (.cycHold d) s = .next s) ∧
    execAll (l.map .cycHold) s = .next s

/-- R32: until the first reset the register holds no value: no sequence of updates and holds gives it one, and reading
`state` or `crc_out` then faults.
That an instruction which changes the circuit leaves the register without a value is the model's reading
(notes/assumptions/7.md). -/
def Obligations.NoValueBeforeFirstReset : Prop :=
  (∀ (s : State) (ci : Circuit) (l : List Edge), s.fullModule = some ci → s.stateReg = none →
    ∃ t : State, execAll (l.map edgeInstr) s = .next t ∧ t.stateReg = none ∧ t.crcOut = none ∧
      readStateReg t = .fault .readBeforeReset ∧ readCrcOut t = .fault .readBeforeReset) ∧
  (∀ (i : Instr) (s t : State), exec i s = .next t → t.circuit ≠ s.circuit → t.stateReg = none)

/-- R176: at every instant `crc_out` is `post` of the register, and nothing else enters it; the host's reads give the
register and that value and have no side effect on the circuit or the generator (R58). While the register holds no
value, `crc_out` holds none and reading it faults. -/
def Obligations.HostReadsSeeRegisterAndPost : Prop :=
  ∀ (s : State) (ci : Circuit), s.fullModule = some ci →
    s.crcOut = s.stateReg.map (post ci.cfg) ∧
    (∀ v, s.stateReg = some v →
      readStateReg s = .next { s with observed := some (.state v) } ∧
      readCrcOut s = .next { s with observed := some (.crcOut (post ci.cfg v)) }) ∧
    (s.stateReg = none → s.crcOut = none ∧ readCrcOut s = .fault .readBeforeReset)

/-- R243 (derived there): `data_in` matters only at an edge with `rst = 0` and `data_en = 1`. -/
def Obligations.DataMattersOnlyAtUpdates : Prop :=
  ∀ (wd : Widths) (s : State) (d d' : Nat) (rst en : Bool) (i i' : Instr), d < 2 ^ wd.n → d' < 2 ^ wd.n →
    ¬ (rst = false ∧ en = true) →
    decode wd (cycWord rst en d) = .ok i → decode wd (cycWord rst en d') = .ok i' →
    exec i s = exec i' s

/-- R178, first paragraph (derived there): a run that starts with a reset and then performs updates and holds in any
order, fed to the machine as `CYC` words, ends with the register at the fold of `next` over the words absorbed,
from `INIT`, and `crc_out` at `post` of it. -/
def Obligations.MessageLaw : Prop :=
  ∀ (s : State) (c : Config) (l : List Edge), s.circuit = some (circuitOf c) → c.mode = .full → c.Valid →
    (∀ e ∈ l, edgeData e < 2 ^ c.n) →
    s.pending = .op (cycWord true false 0) :: l.map edgeInput →
    ∃ t : State, Host.Core.run Sys2Proof.core (l.length + 1) s = .next t ∧ t.pending = [] ∧
      t.stateReg = some ((absorbed l).foldl (next c) c.init) ∧
      t.crcOut = some (post c ((absorbed l).foldl (next c) c.init))

/-- R54 (derived there): a byte stream in an `N = 8m` bit word: packed little-endian with reflect-input and
big-endian without, one word moves the register as its bytes do, one per cycle of the 8-bit circuit. -/
def Obligations.ByteLanesAgreeWithByteStream : Prop :=
  ∀ (c : Config) (bs : List Nat) (x : Nat), c.Valid → x < 2 ^ c.w → bs ≠ [] → c.n = 8 * bs.length →
    (∀ b ∈ bs, b < 256) →
    next c x ((if c.refin then packLittle else packBig) bs) = bs.foldl (next { c with n := 8 }) x

/-- R177: COMB_EVAL of a configuration's bare-logic block yields `next(state_in, data_in)` and `post` of it; the block
has no state, so nothing but the observation changes (R33). -/
def Obligations.CombEvalComputesNextAndPost : Prop :=
  ∀ (s : State) (c : Config) (x y : Nat), s.circuit = some (circuitOf c) → c.Valid → c.mode = .bare →
    exec (.combEval x y) s =
      .next { s with observed := some (.bare (next c x y) (post c (next c x y))) }

/-- R177's corner case: the bare-logic outputs on the register's value and a word are the register and the `crc_out`
of the full module after the edge that absorbs the word. -/
def Obligations.BareLogicRunsOneWordAhead : Prop :=
  ∀ (s t u : State) (c : Config) (v data : Nat), c.Valid → s.circuit = some (circuitOf { c with mode := .bare }) →
    t.circuit = some (circuitOf { c with mode := .full }) → t.stateReg = some v →
    exec (.cycUpdate data) t = .next u →
    ∃ v' o, u.stateReg = some v' ∧ u.crcOut = some o ∧
      exec (.combEval v data) s = .next { s with observed := some (.bare v' o) }

/-! ## The whole machine -/

/-- The frame of every instruction: no instruction takes or adds a pending input; a generator operation leaves the
host's observation alone, and all but the Emitter's leave the circuit and its register alone; a circuit operation
leaves every generator register and the circuit itself alone; only RESOLVE and GENERATE write the tuple. -/
def Obligations.AgentsAreIndependent : Prop :=
  ∀ (i : Instr) (s t : State), exec i s = .next t →
    t.pending = s.pending ∧
    (isCircuitOp i = true → t.raw = s.raw ∧ t.stage = s.stage ∧ t.cfg = s.cfg ∧ t.sv = s.sv ∧ t.pos = s.pos ∧
      t.ov = s.ov ∧ t.result = s.result ∧ t.text = s.text ∧ t.circuit = s.circuit) ∧
    (isCircuitOp i = false → t.observed = s.observed ∧
      (emits i = false → t.circuit = s.circuit ∧ t.stateReg = s.stateReg)) ∧
    (beginsWithResolve i = false → t.raw = s.raw)

/-- R21: no operation but RESOLVE (on its own or in GENERATE) writes the configuration, and a circuit's configuration
changes only by a new circuit's text. -/
def Obligations.ConfigurationIsImmutable : Prop :=
  ∀ (i : Instr) (s t : State), exec i s = .next t →
    (beginsWithResolve i = false → t.cfg = s.cfg) ∧
    (emits i = false → t.circuit = s.circuit)

/-- R31: the register changes only by a reset or an update, or because the Emitter's text describes a new circuit,
whose register holds no value.
The new circuit is the model's choice (notes/assumptions/7.md). -/
def Obligations.OnlyResetAndUpdateWriteRegister : Prop :=
  ∀ (i : Instr) (s t : State), exec i s = .next t → t.stateReg ≠ s.stateReg →
    (∃ e d, i = .cycReset e d) ∨ (∃ d, i = .cycUpdate d) ∨ (emits i = true ∧ t.stateReg = none)

/-- R28: within a run the stage moves only from `CONFIGURED`, to `DONE` or to `FAILED(InternalInvariantError)`;
RESOLVE leaves it `CONFIGURED` or `FAILED(ConfigError)` as the tuple is legal or not, and GENERATE `DONE` or
`FAILED(ConfigError)`.
That an operation of the Emitter on its own moves the stage to `DONE` is the model's reading
(notes/assumptions/7.md), and so is that RESOLVE and GENERATE begin a run from every stage, `DONE` and `FAILED` too
(notes/assumptions/4.md). -/
def Obligations.StageMovesAsSpecified : Prop :=
  ∀ (i : Instr) (s t : State), Inv s → exec i s = .next t →
    (beginsWithResolve i = false → StageMove s.stage t.stage) ∧
    (∀ (src : Src RawTuple) (r : RawTuple), readRaw s src = some r →
      (i = .resolve src →
        (∀ c, resolveTuple r = .ok c → t.stage = .configured) ∧
        (∀ f, resolveTuple r = .bad f → t.stage = configStage f)) ∧
      (i = .generate src →
        (∀ c, resolveTuple r = .ok c → t.stage = .done) ∧
        (∀ f, resolveTuple r = .bad f → t.stage = configStage f)))

/-- The invariant holds before any invocation. -/
def Obligations.InvariantHoldsAtReset : Prop := Inv State.reset

/-- Every step keeps the invariant: the configuration valid, the vectors of exactly `W` terms over legal Symbols
(R25), the unroll position at most `N` (R29), the circuit's equations over its own Symbols, the register, where it
holds a value, of `W` bits in a full module (R31), and text only after the Emitter (R202). -/
def Obligations.StepKeepsInvariant : Prop := ∀ s t : State, Inv s → step s = .next t → Inv t

/-! ## The assembler -/

/-- R80, R81: `message` assembles to one `update` word per data word, and a value that does not fit in `N` bits is
refused, not truncated: in an `update` and anywhere in a message, where the first such value is named. -/
def Obligations.MessagesAssembleToUpdates : Prop :=
  ∀ (c : Config) (l : List Nat),
    ((∀ v ∈ l, v < 2 ^ c.n) →
      assemble (some c) (.message l) = .ok (l.map fun v => .op (cycWord false true v))) ∧
    (∀ v, 2 ^ c.n ≤ v → assemble (some c) (.update v) = .bad (.valueTooWide v)) ∧
    (∀ (a b : List Nat) (v : Nat), l = a ++ v :: b → (∀ x ∈ a, x < 2 ^ c.n) → 2 ^ c.n ≤ v →
      assemble (some c) (.message l) = .bad (.valueTooWide v))

/-- R57, R81, R54: a string fills whole words or is refused, and the assembler pads nothing: word `i` packs the `i`-th
`N / 8` bytes of the string, little-endian with reflect-input and big-endian without. -/
def Obligations.PartialWordsAreRefused : Prop :=
  ∀ (c : Config) (bs : List Nat), 1 ≤ c.n → c.n % 8 = 0 → (∀ b ∈ bs, b < 256) →
    (bs.length % (c.n / 8) ≠ 0 → assemble (some c) (.bytes bs) = .bad .notWholeWords) ∧
    (bs.length % (c.n / 8) = 0 → assemble (some c) (.bytes bs) =
      .ok ((List.range (bs.length / (c.n / 8))).map fun i => .op (cycWord false true
        ((if c.refin then packLittle else packBig) ((bs.drop (i * (c.n / 8))).take (c.n / 8))))))
end

