-- ==== Sys2Proof/Laws/Gf2.lean ====
section
/-! SUPPORT. Laws of the bit arithmetic: GF(2) sums, numbers from bits, reflection, packed terms and their
values. -/

namespace Sys2Proof.Machine

/-! ## GF(2) sums -/

@[simp] theorem xorBits_zero (f : Nat → Bool) : xorBits 0 f = false := rfl

theorem xorBits_succ (n : Nat) (f : Nat → Bool) :
    xorBits (n + 1) f = ((xorBits n f) ^^ (f n)) := rfl

theorem xorBits_congr {n : Nat} {f g : Nat → Bool} (h : ∀ k, k < n → f k = g k) :
    xorBits n f = xorBits n g := by
  induction n with
  | zero => rfl
  | succ n ih =>
    rw [xorBits_succ, xorBits_succ, ih fun k hk => h k (Nat.lt_succ_of_lt hk), h n (Nat.lt_succ_self n)]

@[simp] theorem xorBits_false (n : Nat) : xorBits n (fun _ => false) = false := by
  induction n with
  | zero => rfl
  | succ n ih => rw [xorBits_succ, ih]; rfl

theorem xorBits_xor (n : Nat) (f g : Nat → Bool) :
    xorBits n (fun k => (f k) ^^ (g k)) = ((xorBits n f) ^^ (xorBits n g)) := by
  induction n with
  | zero => rfl
  | succ n ih =>
    rw [xorBits_succ, xorBits_succ, xorBits_succ, ih]
    cases xorBits n f <;> cases xorBits n g <;> cases f n <;> cases g n <;> rfl

/-- A sum with one summand that may be set. -/
theorem xorBits_single {n i : Nat} (hi : i < n) (f : Nat → Bool) :
    xorBits n (fun k => decide (i = k) && f k) = f i := by
  induction n with
  | zero => omega
  | succ n ih =>
    rw [xorBits_succ]
    by_cases h : i = n
    · subst h
      rw [xorBits_congr (g := fun _ => false) fun k hk => by simp [Nat.ne_of_gt hk], xorBits_false]
      simp
    · rw [ih (by omega)]
      simp [h]

/-! ## Numbers from bits -/

theorem ofBits_lt (n : Nat) (f : Nat → Bool) : ofBits n f < 2 ^ n := by
  induction n with
  | zero => simp [ofBits]
  | succ n ih =>
    have h : (f n).toNat * 2 ^ n ≤ 2 ^ n := by cases f n <;> simp
    calc ofBits (n + 1) f = ofBits n f + (f n).toNat * 2 ^ n := rfl
      _ < 2 ^ n + 2 ^ n := Nat.add_lt_add_of_lt_of_le ih h
      _ = 2 ^ (n + 1) := by ring

theorem testBit_ofBits (n k : Nat) (f : Nat → Bool) :
    (ofBits n f).testBit k = (decide (k < n) && f k) := by
  induction n with
  | zero => simp [ofBits]
  | succ n ih =>
    have hlt := ofBits_lt n f
    have hadd : ofBits (n + 1) f = 2 ^ n * (f n).toNat + ofBits n f := by
      rw [ofBits]; ring
    rw [hadd, Nat.testBit_two_pow_mul_add _ hlt, ih]
    by_cases h : k < n
    · simp [h, Nat.lt_succ_of_lt h]
    · by_cases h' : k = n
      · subst h'; cases f k <;> simp
      · have hk : ¬ k < n + 1 := by omega
        have h1 : (1 : Nat).testBit (k - n) = false := by
          have := Nat.testBit_two_pow (n := 0) (m := k - n)
          rw [Nat.pow_zero] at this
          rw [this]
          exact decide_eq_false (by omega)
        cases f n <;> simp [h, hk, h1]

theorem ofBits_congr {n : Nat} {f g : Nat → Bool} (h : ∀ k, k < n → f k = g k) :
    ofBits n f = ofBits n g := by
  induction n with
  | zero => rfl
  | succ n ih =>
    rw [ofBits, ofBits, ih fun k hk => h k (Nat.lt_succ_of_lt hk), h n (Nat.lt_succ_self n)]

/-- A word below `2^n` has no bit at or above `n`. -/
theorem testBit_above {n v k : Nat} (hv : v < 2 ^ n) (hk : n ≤ k) : v.testBit k = false :=
  Nat.testBit_lt_two_pow (Nat.lt_of_lt_of_le hv (Nat.pow_le_pow_right (by omega) hk))

/-- A word below `2^n` is the number of its bits. -/
theorem ofBits_testBit {n v : Nat} (hv : v < 2 ^ n) : ofBits n (fun k => v.testBit k) = v := by
  apply Nat.eq_of_testBit_eq
  intro k
  rw [testBit_ofBits]
  by_cases h : k < n
  · simp [h]
  · rw [testBit_above hv (by omega)]; simp

theorem ofBits_xor (n : Nat) (f g : Nat → Bool) :
    ofBits n (fun k => (f k) ^^ (g k)) = ofBits n f ^^^ ofBits n g := by
  apply Nat.eq_of_testBit_eq
  intro k
  rw [Nat.testBit_xor, testBit_ofBits, testBit_ofBits, testBit_ofBits]
  cases decide (k < n) <;> simp

/-! ## Reflection -/

theorem rev_lt (w : Nat) (v : Nat) : rev w v < 2 ^ w := ofBits_lt _ _

theorem testBit_rev (w j : Nat) (v : Nat) :
    (rev w v).testBit j = (decide (j < w) && v.testBit (w - 1 - j)) := testBit_ofBits _ _ _

/-! ## Packed terms -/

@[simp] theorem symIndex_state (wd : Widths) (i : Nat) : symIndex wd (.state i) = i := rfl

@[simp] theorem symIndex_input (wd : Widths) (j : Nat) : symIndex wd (.input j) = wd.w + j := rfl

/-- Under the legal Symbols the packed index is a position of the index space. -/
theorem symIndex_lt {wd : Widths} {m : Symbol} (h : m.legal wd = true) :
    symIndex wd m < wd.w + wd.n := by
  cases m <;> simp [Symbol.legal] at h <;> simp <;> omega

/-- Two legal Symbols with one packed index are the same. -/
theorem symIndex_inj {wd : Widths} {m k : Symbol} (hm : m.legal wd = true) (hk : k.legal wd = true)
    (h : symIndex wd m = symIndex wd k) : m = k := by
  cases m <;> cases k <;> simp [Symbol.legal] at hm hk <;> simp at h <;> simp <;> omega

theorem testBit_packSym (wd : Widths) (m : Symbol) (i : Nat) :
    (packSym wd m).testBit i = decide (symIndex wd m = i) := Nat.testBit_two_pow

theorem testBit_packSym_state (wd : Widths) (k i : Nat) :
    (packSym wd (.state k)).testBit i = decide (k = i) := Nat.testBit_two_pow

theorem testBit_packSym_input (wd : Widths) (j i : Nat) :
    (packSym wd (.input j)).testBit i = decide (wd.w + j = i) := Nat.testBit_two_pow

theorem packSym_lt {wd : Widths} {m : Symbol} (h : m.legal wd = true) :
    packSym wd m < 2 ^ (wd.w + wd.n) :=
  Nat.pow_lt_pow_right (by omega) (symIndex_lt h)

theorem packSyms_lt {wd : Widths} {l : SymbolList} (h : l.all (Symbol.legal wd) = true) :
    packSyms wd l < 2 ^ (wd.w + wd.n) := by
  induction l with
  | nil => exact Nat.two_pow_pos _
  | cons m l ih =>
    simp only [List.all_cons, Bool.and_eq_true] at h
    exact Nat.xor_lt_two_pow (packSym_lt h.1) (ih h.2)

/-- A Symbol is in the packed term of a list exactly when it occurs an odd number of times. -/
theorem testBit_packSyms {wd : Widths} {l : SymbolList} (h : l.all (Symbol.legal wd) = true)
    {m : Symbol} (hm : m.legal wd = true) :
    (packSyms wd l).testBit (symIndex wd m) = (l.count m % 2 == 1) := by
  induction l with
  | nil => simp [packSyms]
  | cons k l ih =>
    simp only [List.all_cons, Bool.and_eq_true] at h
    rw [packSyms, Nat.testBit_xor, ih h.2, testBit_packSym]
    by_cases hk : k = m
    · subst hk
      rw [List.count_cons_self]
      rcases Nat.mod_two_eq_zero_or_one (l.count k) with h0 | h1
      · simp [h0, Nat.add_mod]
      · simp [h1, Nat.add_mod]
    · have : symIndex wd k ≠ symIndex wd m := fun e => hk (symIndex_inj h.1 hm e)
      rw [List.count_cons_of_ne hk]
      simp [this]

/-- The legal Symbols are the members of the list of all Symbols. -/
theorem mem_allSymbols {wd : Widths} {m : Symbol} : m ∈ allSymbols wd ↔ m.legal wd = true := by
  cases m <;> simp [allSymbols, Symbol.legal]

theorem mem_members {wd : Widths} {t : XorTerm} {m : Symbol} :
    m ∈ members wd t ↔ m.legal wd = true ∧ t.testBit (symIndex wd m) = true := by
  simp [members, mem_allSymbols]

theorem nodup_allSymbols (wd : Widths) : (allSymbols wd).Nodup := by
  refine List.nodup_append.2 ⟨?_, ?_, ?_⟩
  · exact List.nodup_range.map fun a b h => by simpa using h
  · exact List.nodup_range.map fun a b h => by simpa using h
  · intro a ha b hb
    simp only [List.mem_map] at ha hb
    obtain ⟨i, -, rfl⟩ := ha
    obtain ⟨j, -, rfl⟩ := hb
    simp

theorem nodup_members (wd : Widths) (t : XorTerm) : (members wd t).Nodup :=
  (nodup_allSymbols wd).filter _

theorem members_legal (wd : Widths) (t : XorTerm) : (members wd t).all (Symbol.legal wd) = true := by
  rw [List.all_eq_true]
  exact fun m hm => (mem_members.1 hm).1

/-- The members of a singleton term (R26). -/
theorem members_two_pow {wd : Widths} {k : Nat} (h : k < wd.w) : members wd (2 ^ k) = [.state k] := by
  have hl : members wd (2 ^ k) = (allSymbols wd).filter (fun m => m == .state k) := by
    refine List.filter_congr fun m hm => ?_
    rw [Nat.testBit_two_pow]
    cases m with
    | state i =>
      by_cases e : k = i
      · subst e; simp
      · have e2 : i ≠ k := fun h => e h.symm
        simp [e, e2]
    | input j =>
      have e : k ≠ wd.w + j := by omega
      simp [e]
  rw [hl, List.filter_beq, List.count_eq_one_of_mem (nodup_allSymbols wd)
    (mem_allSymbols.2 (by simp [Symbol.legal, h]))]
  rfl

/-- Every packed index is the index of a legal Symbol. -/
theorem exists_symbol {wd : Widths} {i : Nat} (h : i < wd.w + wd.n) :
    ∃ m : Symbol, m.legal wd = true ∧ symIndex wd m = i := by
  by_cases hi : i < wd.w
  · exact ⟨.state i, by simp [Symbol.legal, hi], rfl⟩
  · exact ⟨.input (i - wd.w), by simp [Symbol.legal]; omega, by simp; omega⟩

/-- Packed terms are equal when they hold the same legal Symbols. -/
theorem term_ext {wd : Widths} {t u : XorTerm} (ht : t < 2 ^ (wd.w + wd.n)) (hu : u < 2 ^ (wd.w + wd.n))
    (h : ∀ m : Symbol, m.legal wd = true → t.testBit (symIndex wd m) = u.testBit (symIndex wd m)) :
    t = u := by
  apply Nat.eq_of_testBit_eq
  intro i
  by_cases hi : i < wd.w + wd.n
  · obtain ⟨m, hm, rfl⟩ := exists_symbol hi
    exact h m hm
  · rw [testBit_above ht (by omega), testBit_above hu (by omega)]

/-- Packing the members of a legal term gives the term back. -/
theorem packSyms_members {wd : Widths} {t : XorTerm} (ht : t < 2 ^ (wd.w + wd.n)) :
    packSyms wd (members wd t) = t := by
  refine term_ext (packSyms_lt (members_legal wd t)) ht fun m hm => ?_
  rw [testBit_packSyms (members_legal wd t) hm]
  by_cases h : t.testBit (symIndex wd m) = true
  · rw [h, List.count_eq_one_of_mem (nodup_members wd t) (mem_members.2 ⟨hm, h⟩)]; rfl
  · rw [List.count_eq_zero_of_not_mem fun hmem => h (mem_members.1 hmem).2]
    simpa using h

/-! ## Values of terms -/

@[simp] theorem evalTerm_zero (wd : Widths) (s d : Nat) : evalTerm wd 0 s d = false := by
  simp [evalTerm]

theorem evalTerm_termXor (wd : Widths) (t u : XorTerm) (s d : Nat) :
    evalTerm wd (termXor t u) s d = ((evalTerm wd t s d) ^^ (evalTerm wd u s d)) := by
  have h1 : xorBits wd.w (fun i => (t ^^^ u).testBit i && s.testBit i) =
      ((xorBits wd.w fun i => t.testBit i && s.testBit i) ^^
        (xorBits wd.w fun i => u.testBit i && s.testBit i)) := by
    rw [← xorBits_xor]
    refine xorBits_congr fun k _ => ?_
    rw [Nat.testBit_xor]
    cases t.testBit k <;> cases u.testBit k <;> cases s.testBit k <;> rfl
  have h2 : xorBits wd.n (fun j => (t ^^^ u).testBit (wd.w + j) && d.testBit j) =
      ((xorBits wd.n fun j => t.testBit (wd.w + j) && d.testBit j) ^^
        (xorBits wd.n fun j => u.testBit (wd.w + j) && d.testBit j)) := by
    rw [← xorBits_xor]
    refine xorBits_congr fun k _ => ?_
    rw [Nat.testBit_xor]
    cases t.testBit (wd.w + k) <;> cases u.testBit (wd.w + k) <;> cases d.testBit k <;> rfl
  unfold evalTerm termXor
  rw [h1, h2]
  generalize (xorBits wd.w fun i => t.testBit i && s.testBit i) = a
  generalize (xorBits wd.w fun i => u.testBit i && s.testBit i) = b
  generalize (xorBits wd.n fun j => t.testBit (wd.w + j) && d.testBit j) = e
  generalize (xorBits wd.n fun j => u.testBit (wd.w + j) && d.testBit j) = f
  cases a <;> cases b <;> cases e <;> cases f <;> rfl

/-- The value of `S_i` is bit `i` of the register value. -/
theorem evalTerm_state {wd : Widths} {i : Nat} (hi : i < wd.w) (s d : Nat) :
    evalTerm wd (2 ^ i) s d = s.testBit i := by
  have h2 : xorBits wd.n (fun j => (2 ^ i : Nat).testBit (wd.w + j) && d.testBit j) = false := by
    rw [xorBits_congr (g := fun _ => false), xorBits_false]
    intro k _
    have : i ≠ wd.w + k := by omega
    simp [this]
  have h1 : xorBits wd.w (fun k => (2 ^ i : Nat).testBit k && s.testBit k) = s.testBit i := by
    simp only [Nat.testBit_two_pow]
    exact xorBits_single hi fun k => s.testBit k
  unfold evalTerm
  rw [h1, h2]
  simp

/-- The value of `D_j` is bit `j` of the input word. -/
theorem evalTerm_input {wd : Widths} {j : Nat} (hj : j < wd.n) (s d : Nat) :
    evalTerm wd (packSym wd (.input j)) s d = d.testBit j := by
  have h1 : xorBits wd.w (fun k => (2 ^ (wd.w + j) : Nat).testBit k && s.testBit k) = false := by
    rw [xorBits_congr (g := fun _ => false), xorBits_false]
    intro k hk
    have : wd.w + j ≠ k := by omega
    simp [this]
  have h2 : xorBits wd.n (fun k => (2 ^ (wd.w + j) : Nat).testBit (wd.w + k) && d.testBit k) =
      d.testBit j := by
    simp only [Nat.testBit_two_pow, Nat.add_left_cancel_iff]
    exact xorBits_single hj fun k => d.testBit k
  unfold evalTerm packSym
  rw [symIndex_input, h1, h2]
  simp

end Sys2Proof.Machine
end

