-- ==== Sys2Proof/Laws/State.lean ====
section
/-! SUPPORT. What each named update of the state writes, field by field. -/

namespace Sys2Proof.Machine

variable (s : State)

/-! ## `State.startRun` -/

@[simp] theorem State.startRun_pending (r : RawTuple) : (s.startRun r).pending = s.pending := rfl
@[simp] theorem State.startRun_raw (r : RawTuple) : (s.startRun r).raw = some r := rfl
@[simp] theorem State.startRun_stage (r : RawTuple) : (s.startRun r).stage = .start := rfl
@[simp] theorem State.startRun_cfg (r : RawTuple) : (s.startRun r).cfg = none := rfl
@[simp] theorem State.startRun_sv (r : RawTuple) : (s.startRun r).sv = none := rfl
@[simp] theorem State.startRun_pos (r : RawTuple) : (s.startRun r).pos = 0 := rfl
@[simp] theorem State.startRun_ov (r : RawTuple) : (s.startRun r).ov = none := rfl
@[simp] theorem State.startRun_result (r : RawTuple) : (s.startRun r).result = none := rfl
@[simp] theorem State.startRun_text (r : RawTuple) : (s.startRun r).text = none := rfl
@[simp] theorem State.startRun_circuit (r : RawTuple) : (s.startRun r).circuit = s.circuit := rfl
@[simp] theorem State.startRun_stateReg (r : RawTuple) : (s.startRun r).stateReg = s.stateReg := rfl
@[simp] theorem State.startRun_observed (r : RawTuple) : (s.startRun r).observed = s.observed := rfl

/-! ## `State.configure` -/

@[simp] theorem State.configure_pending (c : Config) : (s.configure c).pending = s.pending := rfl
@[simp] theorem State.configure_raw (c : Config) : (s.configure c).raw = s.raw := rfl
@[simp] theorem State.configure_stage (c : Config) : (s.configure c).stage = .configured := rfl
@[simp] theorem State.configure_cfg (c : Config) : (s.configure c).cfg = some c := rfl
@[simp] theorem State.configure_sv (c : Config) : (s.configure c).sv = s.sv := rfl
@[simp] theorem State.configure_pos (c : Config) : (s.configure c).pos = s.pos := rfl
@[simp] theorem State.configure_ov (c : Config) : (s.configure c).ov = s.ov := rfl
@[simp] theorem State.configure_result (c : Config) : (s.configure c).result = some (.config c) := rfl
@[simp] theorem State.configure_text (c : Config) : (s.configure c).text = s.text := rfl
@[simp] theorem State.configure_circuit (c : Config) : (s.configure c).circuit = s.circuit := rfl
@[simp] theorem State.configure_stateReg (c : Config) : (s.configure c).stateReg = s.stateReg := rfl
@[simp] theorem State.configure_observed (c : Config) : (s.configure c).observed = s.observed := rfl

/-! ## `State.raise` -/

@[simp] theorem State.raise_pending (e : GenError) : (s.raise e).pending = s.pending := rfl
@[simp] theorem State.raise_raw (e : GenError) : (s.raise e).raw = s.raw := rfl
@[simp] theorem State.raise_stage (e : GenError) : (s.raise e).stage = .failed e := rfl
@[simp] theorem State.raise_cfg (e : GenError) : (s.raise e).cfg = s.cfg := rfl
@[simp] theorem State.raise_sv (e : GenError) : (s.raise e).sv = s.sv := rfl
@[simp] theorem State.raise_pos (e : GenError) : (s.raise e).pos = s.pos := rfl
@[simp] theorem State.raise_ov (e : GenError) : (s.raise e).ov = s.ov := rfl
@[simp] theorem State.raise_result (e : GenError) : (s.raise e).result = some (.error e) := rfl
@[simp] theorem State.raise_text (e : GenError) : (s.raise e).text = none := rfl
@[simp] theorem State.raise_circuit (e : GenError) : (s.raise e).circuit = s.circuit := rfl
@[simp] theorem State.raise_stateReg (e : GenError) : (s.raise e).stateReg = s.stateReg := rfl
@[simp] theorem State.raise_observed (e : GenError) : (s.raise e).observed = s.observed := rfl

/-! ## `State.answer` -/

@[simp] theorem State.answer_pending (r : Result) : (s.answer r).pending = s.pending := rfl
@[simp] theorem State.answer_raw (r : Result) : (s.answer r).raw = s.raw := rfl
@[simp] theorem State.answer_stage (r : Result) : (s.answer r).stage = s.stage := rfl
@[simp] theorem State.answer_cfg (r : Result) : (s.answer r).cfg = s.cfg := rfl
@[simp] theorem State.answer_sv (r : Result) : (s.answer r).sv = s.sv := rfl
@[simp] theorem State.answer_pos (r : Result) : (s.answer r).pos = s.pos := rfl
@[simp] theorem State.answer_ov (r : Result) : (s.answer r).ov = s.ov := rfl
@[simp] theorem State.answer_result (r : Result) : (s.answer r).result = some r := rfl
@[simp] theorem State.answer_text (r : Result) : (s.answer r).text = s.text := rfl
@[simp] theorem State.answer_circuit (r : Result) : (s.answer r).circuit = s.circuit := rfl
@[simp] theorem State.answer_stateReg (r : Result) : (s.answer r).stateReg = s.stateReg := rfl
@[simp] theorem State.answer_observed (r : Result) : (s.answer r).observed = s.observed := rfl

/-! ## `State.setVector` -/

@[simp] theorem State.setVector_pending (v : StateVector) (p : Nat) : (s.setVector v p).pending = s.pending := rfl
@[simp] theorem State.setVector_raw (v : StateVector) (p : Nat) : (s.setVector v p).raw = s.raw := rfl
@[simp] theorem State.setVector_stage (v : StateVector) (p : Nat) : (s.setVector v p).stage = s.stage := rfl
@[simp] theorem State.setVector_cfg (v : StateVector) (p : Nat) : (s.setVector v p).cfg = s.cfg := rfl
@[simp] theorem State.setVector_sv (v : StateVector) (p : Nat) : (s.setVector v p).sv = some v := rfl
@[simp] theorem State.setVector_pos (v : StateVector) (p : Nat) : (s.setVector v p).pos = p := rfl
@[simp] theorem State.setVector_ov (v : StateVector) (p : Nat) : (s.setVector v p).ov = s.ov := rfl
@[simp] theorem State.setVector_result (v : StateVector) (p : Nat) : (s.setVector v p).result = some (.stateVector v) := rfl
@[simp] theorem State.setVector_text (v : StateVector) (p : Nat) : (s.setVector v p).text = s.text := rfl
@[simp] theorem State.setVector_circuit (v : StateVector) (p : Nat) : (s.setVector v p).circuit = s.circuit := rfl
@[simp] theorem State.setVector_stateReg (v : StateVector) (p : Nat) : (s.setVector v p).stateReg = s.stateReg := rfl
@[simp] theorem State.setVector_observed (v : StateVector) (p : Nat) : (s.setVector v p).observed = s.observed := rfl

/-! ## `State.setOut` -/

@[simp] theorem State.setOut_pending (v : OutVector) : (s.setOut v).pending = s.pending := rfl
@[simp] theorem State.setOut_raw (v : OutVector) : (s.setOut v).raw = s.raw := rfl
@[simp] theorem State.setOut_stage (v : OutVector) : (s.setOut v).stage = s.stage := rfl
@[simp] theorem State.setOut_cfg (v : OutVector) : (s.setOut v).cfg = s.cfg := rfl
@[simp] theorem State.setOut_sv (v : OutVector) : (s.setOut v).sv = s.sv := rfl
@[simp] theorem State.setOut_pos (v : OutVector) : (s.setOut v).pos = s.pos := rfl
@[simp] theorem State.setOut_ov (v : OutVector) : (s.setOut v).ov = some v := rfl
@[simp] theorem State.setOut_result (v : OutVector) : (s.setOut v).result = some (.outVector v) := rfl
@[simp] theorem State.setOut_text (v : OutVector) : (s.setOut v).text = s.text := rfl
@[simp] theorem State.setOut_circuit (v : OutVector) : (s.setOut v).circuit = s.circuit := rfl
@[simp] theorem State.setOut_stateReg (v : OutVector) : (s.setOut v).stateReg = s.stateReg := rfl
@[simp] theorem State.setOut_observed (v : OutVector) : (s.setOut v).observed = s.observed := rfl

/-! ## `State.finish` -/

@[simp] theorem State.finish_pending (t : Text) (ci : Circuit) : (s.finish t ci).pending = s.pending := rfl
@[simp] theorem State.finish_raw (t : Text) (ci : Circuit) : (s.finish t ci).raw = s.raw := rfl
@[simp] theorem State.finish_stage (t : Text) (ci : Circuit) : (s.finish t ci).stage = .done := rfl
@[simp] theorem State.finish_cfg (t : Text) (ci : Circuit) : (s.finish t ci).cfg = s.cfg := rfl
@[simp] theorem State.finish_sv (t : Text) (ci : Circuit) : (s.finish t ci).sv = s.sv := rfl
@[simp] theorem State.finish_pos (t : Text) (ci : Circuit) : (s.finish t ci).pos = s.pos := rfl
@[simp] theorem State.finish_ov (t : Text) (ci : Circuit) : (s.finish t ci).ov = s.ov := rfl
@[simp] theorem State.finish_result (t : Text) (ci : Circuit) : (s.finish t ci).result = some (.text t) := rfl
@[simp] theorem State.finish_text (t : Text) (ci : Circuit) : (s.finish t ci).text = some t := rfl
@[simp] theorem State.finish_circuit (t : Text) (ci : Circuit) : (s.finish t ci).circuit = some ci := rfl
@[simp] theorem State.finish_stateReg (t : Text) (ci : Circuit) : (s.finish t ci).stateReg = none := rfl
@[simp] theorem State.finish_observed (t : Text) (ci : Circuit) : (s.finish t ci).observed = s.observed := rfl

/-! ## `State.setReg` -/

@[simp] theorem State.setReg_pending (v : Option Nat) : (s.setReg v).pending = s.pending := rfl
@[simp] theorem State.setReg_raw (v : Option Nat) : (s.setReg v).raw = s.raw := rfl
@[simp] theorem State.setReg_stage (v : Option Nat) : (s.setReg v).stage = s.stage := rfl
@[simp] theorem State.setReg_cfg (v : Option Nat) : (s.setReg v).cfg = s.cfg := rfl
@[simp] theorem State.setReg_sv (v : Option Nat) : (s.setReg v).sv = s.sv := rfl
@[simp] theorem State.setReg_pos (v : Option Nat) : (s.setReg v).pos = s.pos := rfl
@[simp] theorem State.setReg_ov (v : Option Nat) : (s.setReg v).ov = s.ov := rfl
@[simp] theorem State.setReg_result (v : Option Nat) : (s.setReg v).result = s.result := rfl
@[simp] theorem State.setReg_text (v : Option Nat) : (s.setReg v).text = s.text := rfl
@[simp] theorem State.setReg_circuit (v : Option Nat) : (s.setReg v).circuit = s.circuit := rfl
@[simp] theorem State.setReg_stateReg (v : Option Nat) : (s.setReg v).stateReg = v := rfl
@[simp] theorem State.setReg_observed (v : Option Nat) : (s.setReg v).observed = s.observed := rfl

/-! ## `State.observe` -/

@[simp] theorem State.observe_pending (o : Observation) : (s.observe o).pending = s.pending := rfl
@[simp] theorem State.observe_raw (o : Observation) : (s.observe o).raw = s.raw := rfl
@[simp] theorem State.observe_stage (o : Observation) : (s.observe o).stage = s.stage := rfl
@[simp] theorem State.observe_cfg (o : Observation) : (s.observe o).cfg = s.cfg := rfl
@[simp] theorem State.observe_sv (o : Observation) : (s.observe o).sv = s.sv := rfl
@[simp] theorem State.observe_pos (o : Observation) : (s.observe o).pos = s.pos := rfl
@[simp] theorem State.observe_ov (o : Observation) : (s.observe o).ov = s.ov := rfl
@[simp] theorem State.observe_result (o : Observation) : (s.observe o).result = s.result := rfl
@[simp] theorem State.observe_text (o : Observation) : (s.observe o).text = s.text := rfl
@[simp] theorem State.observe_circuit (o : Observation) : (s.observe o).circuit = s.circuit := rfl
@[simp] theorem State.observe_stateReg (o : Observation) : (s.observe o).stateReg = s.stateReg := rfl
@[simp] theorem State.observe_observed (o : Observation) : (s.observe o).observed = some o := rfl

/-! ## `State.setPending` -/

@[simp] theorem State.setPending_pending (l : List HostInput) : (s.setPending l).pending = l := rfl
@[simp] theorem State.setPending_raw (l : List HostInput) : (s.setPending l).raw = s.raw := rfl
@[simp] theorem State.setPending_stage (l : List HostInput) : (s.setPending l).stage = s.stage := rfl
@[simp] theorem State.setPending_cfg (l : List HostInput) : (s.setPending l).cfg = s.cfg := rfl
@[simp] theorem State.setPending_sv (l : List HostInput) : (s.setPending l).sv = s.sv := rfl
@[simp] theorem State.setPending_pos (l : List HostInput) : (s.setPending l).pos = s.pos := rfl
@[simp] theorem State.setPending_ov (l : List HostInput) : (s.setPending l).ov = s.ov := rfl
@[simp] theorem State.setPending_result (l : List HostInput) : (s.setPending l).result = s.result := rfl
@[simp] theorem State.setPending_text (l : List HostInput) : (s.setPending l).text = s.text := rfl
@[simp] theorem State.setPending_circuit (l : List HostInput) : (s.setPending l).circuit = s.circuit := rfl
@[simp] theorem State.setPending_stateReg (l : List HostInput) : (s.setPending l).stateReg = s.stateReg := rfl
@[simp] theorem State.setPending_observed (l : List HostInput) : (s.setPending l).observed = s.observed := rfl

/-! ## Updates that write back what is there -/

@[simp] theorem State.setReg_self : s.setReg s.stateReg = s := rfl

@[simp] theorem State.setPending_self : s.setPending s.pending = s := rfl

/-! ## Readings of the state that an update leaves alone -/

@[simp] theorem State.setPending_fullModule (l : List HostInput) :
    (s.setPending l).fullModule = s.fullModule := rfl

@[simp] theorem State.setPending_bareLogic (l : List HostInput) :
    (s.setPending l).bareLogic = s.bareLogic := rfl

@[simp] theorem State.setPending_runFailed (l : List HostInput) :
    (s.setPending l).runFailed = s.runFailed := rfl

@[simp] theorem State.setReg_fullModule (v : Option Nat) :
    (s.setReg v).fullModule = s.fullModule := rfl

@[simp] theorem State.setReg_bareLogic (v : Option Nat) :
    (s.setReg v).bareLogic = s.bareLogic := rfl

end Sys2Proof.Machine
end

