-- ==== Sys2Proof/Laws/Ops.lean ====
section
/-! SUPPORT. What each shared operation can answer, said once: the preconditions, raising and finishing, starting a
run, fetching, and one step. -/

namespace Sys2Proof.Machine

/-! ## Which circuit there is -/

theorem fullModule_iff {s : State} {ci : Circuit} :
    s.fullModule = some ci ↔ s.circuit = some ci ∧ ci.cfg.mode = .full := by
  unfold State.fullModule
  cases h : s.circuit with
  | none => simp
  | some c =>
    by_cases hm : c.cfg.mode = .full
    · simp only [hm, if_true, Option.some.injEq]
      exact ⟨fun e => ⟨e, e ▸ hm⟩, fun e => e.1⟩
    · simp only [hm, if_false, Option.some.injEq]
      exact ⟨fun e => absurd e (by simp), fun e => absurd (e.1 ▸ e.2) hm⟩

theorem bareLogic_iff {s : State} {ci : Circuit} :
    s.bareLogic = some ci ↔ s.circuit = some ci ∧ ci.cfg.mode = .bare := by
  unfold State.bareLogic
  cases h : s.circuit with
  | none => simp
  | some c =>
    by_cases hm : c.cfg.mode = .bare
    · simp only [hm, if_true, Option.some.injEq]
      exact ⟨fun e => ⟨e, e ▸ hm⟩, fun e => e.1⟩
    · simp only [hm, if_false, Option.some.injEq]
      exact ⟨fun e => absurd e (by simp), fun e => absurd (e.1 ▸ e.2) hm⟩

/-- `crc_out` of a full module whose register holds a value (R176). -/
theorem crcOut_of {s : State} {ci : Circuit} (h : s.fullModule = some ci) :
    s.crcOut = s.stateReg.map (post ci.cfg) := by
  unfold State.crcOut
  rw [h]
  cases s.stateReg <;> rfl

/-! ## Preconditions -/

@[simp] theorem withConfig_some {s : State} {c : Config} (h : s.cfg = some c) (k : Config → Answer) :
    withConfig s k = k c := by
  simp [withConfig, h]

theorem withConfig_next {s t : State} {k : Config → Answer} (h : withConfig s k = .next t) :
    ∃ c, s.cfg = some c ∧ k c = .next t := by
  unfold withConfig at h
  split at h
  · exact ⟨_, by assumption, h⟩
  · exact absurd h (by simp)

@[simp] theorem withFull_some {s : State} {ci : Circuit} (h : s.fullModule = some ci)
    (k : Circuit → Answer) : withFull s k = k ci := by
  simp [withFull, h]

theorem withFull_next {s t : State} {k : Circuit → Answer} (h : withFull s k = .next t) :
    ∃ ci, s.fullModule = some ci ∧ k ci = .next t := by
  unfold withFull at h
  split at h
  · exact ⟨_, by assumption, h⟩
  · exact absurd h (by simp)

@[simp] theorem withBare_some {s : State} {ci : Circuit} (h : s.bareLogic = some ci)
    (k : Circuit → Answer) : withBare s k = k ci := by
  simp [withBare, h]

theorem withBare_next {s t : State} {k : Circuit → Answer} (h : withBare s k = .next t) :
    ∃ ci, s.bareLogic = some ci ∧ k ci = .next t := by
  unfold withBare at h
  split at h
  · exact ⟨_, by assumption, h⟩
  · exact absurd h (by simp)

/-! ## Ending a run -/

theorem raiseInRun_next {s t : State} {e : GenError} (h : raiseInRun s e = .next t) :
    (s.stage = .start ∨ s.stage = .configured) ∧ t = s.raise e := by
  unfold raiseInRun at h
  cases hs : s.stage <;> simp [hs] at h
  · exact ⟨.inl rfl, h.symm⟩
  · exact ⟨.inr rfl, h.symm⟩

theorem runFailed_iff {s : State} : s.runFailed = true ↔ ∃ e, s.stage = .failed e := by
  unfold State.runFailed
  cases s.stage <;> simp

theorem finishRun_next {s t : State} {x : Text} {ci : Circuit} (h : finishRun s x ci = .next t) :
    s.runFailed = false ∧ t = s.finish x ci := by
  unfold finishRun at h
  split at h
  · exact absurd h (by simp)
  · exact ⟨by simpa using ‹¬ s.runFailed = true›, by simpa using h.symm⟩

/-! ## RESOLVE's state -/

theorem resolveRun_ok {s : State} {r : RawTuple} {c : Config} (h : resolveTuple r = .ok c) :
    s.resolveRun r = (s.startRun r).configure c := by
  simp [State.resolveRun, h]

theorem resolveRun_bad {s : State} {r : RawTuple} {f : ConfigField} (h : resolveTuple r = .bad f) :
    s.resolveRun r = (s.startRun r).raise (.config (configError f)) := by
  simp [State.resolveRun, h]

/-! ## Fetching and stepping -/

/-- Everything a fetch of an operation word can answer. -/
theorem fetchOp_cases (x : OpWord) (s : State) :
    (s.widthsFor x.fmt = none ∧ fetchOp x s = .refuse (noAgent x.fmt)) ∨
    (∃ wd e, s.widthsFor x.fmt = some wd ∧ decode wd x = .bad e ∧
      fetchOp x s = .refuse (.undecodable e)) ∨
    (∃ wd i, s.widthsFor x.fmt = some wd ∧ decode wd x = .ok i ∧
      ((s.neverReached x.fmt i = true ∧ fetchOp x s = .unreached s) ∨
       (s.neverReached x.fmt i = false ∧ i.wellFormed wd = true ∧ fetchOp x s = .run i s) ∨
       (s.neverReached x.fmt i = false ∧ i.wellFormed wd = false ∧
         fetchOp x s = .refuse .illFormedOperand))) := by
  unfold fetchOp
  cases hw : s.widthsFor x.fmt with
  | none => exact .inl ⟨rfl, rfl⟩
  | some wd =>
    cases hd : decode wd x with
    | bad e => exact .inr (.inl ⟨wd, e, rfl, hd, by simp [hd]⟩)
    | ok i =>
      refine .inr (.inr ⟨wd, i, rfl, hd, ?_⟩)
      cases hr : s.neverReached x.fmt i
      · cases hf : i.wellFormed wd
        · exact .inr (.inr ⟨rfl, rfl, by simp [hd, hr, hf]⟩)
        · exact .inr (.inl ⟨rfl, rfl, by simp [hd, hr, hf]⟩)
      · exact .inl ⟨rfl, by simp [hd, hr]⟩

/-- Everything a step that gives a next state can have done. -/
theorem step_cases {s t : State} (h : step s = .next t) :
    (s.pending = [] ∧ t = s) ∨
    (∃ l, s.pending = .readState :: l ∧ readStateReg (s.setPending l) = .next t) ∨
    (∃ l, s.pending = .readCrc :: l ∧ readCrcOut (s.setPending l) = .next t) ∨
    (∃ x l, s.pending = .op x :: l ∧
      ((t = s.setPending l ∧ s.runFailed = true) ∨
       ∃ wd i, s.widthsFor x.fmt = some wd ∧ decode wd x = .ok i ∧ i.wellFormed wd = true ∧
         exec i (s.setPending l) = .next t)) := by
  unfold step fetch at h
  cases hp : s.pending with
  | nil => simp [hp] at h; exact .inl ⟨rfl, h.symm⟩
  | cons a l =>
    cases a with
    | readState => simp [hp] at h; exact .inr (.inl ⟨l, rfl, h⟩)
    | readCrc => simp [hp] at h; exact .inr (.inr (.inl ⟨l, rfl, h⟩))
    | op x =>
      refine .inr (.inr (.inr ⟨x, l, rfl, ?_⟩))
      simp only [hp] at h
      rcases fetchOp_cases x (s.setPending l) with ⟨-, hf⟩ | ⟨wd, e, -, -, hf⟩ |
        ⟨wd, i, hw, hd, ⟨hr, hf⟩ | ⟨-, hwf, hf⟩ | ⟨-, -, hf⟩⟩
      · simp [hf] at h
      · simp [hf] at h
      · simp [hf] at h
        have : s.runFailed = true := by
          simp [State.neverReached] at hr; exact hr.1.2
        exact .inl ⟨h.symm, this⟩
      · simp [hf] at h
        exact .inr ⟨wd, i, hw, hd, hwf, h⟩
      · simp [hf] at h

end Sys2Proof.Machine
end

