-- ==== Sys2Proof/Laws/PerInstr.lean ====
section
/-! SUPPORT. Statements made for every instruction, one lemma per constructor. `WordFits`: the encoder's word has
no bit above its format's length (R70). -/

namespace Sys2Proof.Laws.WordFits

/-- The word of a well-formed instruction fits its format. -/
def Statement (i : Instr) : Prop :=
  ∀ wd : Widths, i.wellFormed wd = true → (encode wd i).word < 2 ^ formatBits wd (encode wd i).fmt

/-- A cycle word fits `N + 2` bits when its data fits `N` bits. -/
theorem cyc_fits {wd : Widths} (rst en : Bool) {data : Nat} (h : data < 2 ^ wd.n) :
    (cycWord rst en data).word < 2 ^ formatBits wd (cycWord rst en data).fmt := by
  have hp : (2 : Nat) ^ (wd.n + 2) = 4 * 2 ^ wd.n := by ring
  simp only [cycWord, formatBits, hp]
  cases rst <;> cases en <;> simp <;> omega

theorem resolve (raw : Src RawTuple) : Statement (.resolve raw) :=
  fun _ _ => by simp [encode, formatBits]

theorem termXor (t u : TermSrc) : Statement (.termXor t u) :=
  fun _ _ => by simp [encode, formatBits]

theorem symStep (sv : Src StateVector) (j : Src Nat) : Statement (.symStep sv j) :=
  fun _ _ => by simp [encode, formatBits]

theorem unroll : Statement .unroll :=
  fun _ _ => by simp [encode, formatBits]

theorem outmap (sv : Src StateVector) : Statement (.outmap sv) :=
  fun _ _ => by simp [encode, formatBits]

theorem canon (t : CanonSrc) : Statement (.canon t) :=
  fun _ _ => by simp [encode, formatBits]

theorem checkLen (sv : Src (List SymbolList)) (ov : Src (List OutList)) : Statement (.checkLen sv ov) :=
  fun _ _ => by simp [encode, formatBits]

theorem emitBare (sv : Src (List SymbolList)) (ov : Src (List OutList)) : Statement (.emitBare sv ov) :=
  fun _ _ => by simp [encode, formatBits]

theorem emitFull (sv : Src (List SymbolList)) : Statement (.emitFull sv) :=
  fun _ _ => by simp [encode, formatBits]

theorem generate (raw : Src RawTuple) : Statement (.generate raw) :=
  fun _ _ => by simp [encode, formatBits]

theorem eval (t : EvalSrc) (s d : Nat) : Statement (.eval t s d) :=
  fun _ _ => by simp [encode, formatBits]

theorem cycReset (en : Bool) (data : Nat) : Statement (.cycReset en data) :=
  fun _ h => cyc_fits true en (by simpa [Instr.wellFormed] using h)

theorem cycUpdate (data : Nat) : Statement (.cycUpdate data) :=
  fun _ h => cyc_fits false true (by simpa [Instr.wellFormed] using h)

theorem cycHold (data : Nat) : Statement (.cycHold data) :=
  fun _ h => cyc_fits false false (by simpa [Instr.wellFormed] using h)

theorem combEval (s d : Nat) : Statement (.combEval s d) := fun wd h => by
  simp only [Instr.wellFormed, Bool.and_eq_true, decide_eq_true_eq] at h
  have hs : s * 2 ^ wd.n + 2 ^ wd.n ≤ 2 ^ wd.w * 2 ^ wd.n := by
    rw [← Nat.succ_mul]
    exact Nat.mul_le_mul_right _ h.1
  simp only [encode, combWord, formatBits, Nat.pow_add]
  omega

end Sys2Proof.Laws.WordFits
end

