-- ==== Sys2Proof/Laws/Resolver.lean ====
section
/-! SUPPORT. What each check of RESOLVE accepts and rejects, said once (R100). -/

namespace Sys2Proof.Machine

theorem asPositive_some {v : RawVal} {n : Nat} (h : asPositive v = some n) :
    ∃ i : Int, v = .int i ∧ 1 ≤ i ∧ i.toNat = n := by
  cases v <;> simp [asPositive] at h
  exact ⟨_, rfl, h.1, h.2⟩

theorem asPositive_none {v : RawVal} (h : asPositive v = none) : ¬ ∃ i : Int, v = .int i ∧ 1 ≤ i := by
  rintro ⟨i, rfl, hi⟩
  simp [asPositive] at h
  omega

theorem asWord_some {v : RawVal} {w n : Nat} (h : asWord w v = some n) :
    ∃ i : Int, v = .int i ∧ 0 ≤ i ∧ i < 2 ^ w ∧ i.toNat = n := by
  cases v <;> simp [asWord] at h
  exact ⟨_, rfl, h.1.1, h.1.2, h.2⟩

theorem asWord_none {v : RawVal} {w : Nat} (h : asWord w v = none) :
    ¬ ∃ i : Int, v = .int i ∧ 0 ≤ i ∧ i < 2 ^ w := by
  rintro ⟨i, rfl, hi, hw⟩
  simp [asWord] at h
  have := h hi
  omega

theorem asBool_some {v : RawVal} {b : Bool} (h : asBool v = some b) :
    (∃ b, v = .bool b) ∨ v = .int 0 ∨ v = .int 1 := by
  cases v with
  | bool b => exact .inl ⟨b, rfl⟩
  | name t => simp [asBool] at h
  | int i =>
    simp only [asBool] at h
    split at h
    · subst_vars; exact .inr (.inl rfl)
    · split at h
      · subst_vars; exact .inr (.inr rfl)
      · simp at h

theorem asBool_none {v : RawVal} (h : asBool v = none) :
    ¬ ((∃ b, v = .bool b) ∨ v = .int 0 ∨ v = .int 1) := by
  rintro (⟨b, rfl⟩ | rfl | rfl) <;> simp [asBool] at h

theorem asMode_some {v : RawVal} {m : Mode} (h : asMode v = some m) :
    v = .name "BARE" ∨ v = .name "FULL" := by
  cases v with
  | bool b => simp [asMode] at h
  | int i => simp [asMode] at h
  | name t =>
    simp only [asMode] at h
    split at h
    · subst_vars; exact .inl rfl
    · split at h
      · subst_vars; exact .inr rfl
      · simp at h

theorem asMode_none {v : RawVal} (h : asMode v = none) : ¬ (v = .name "BARE" ∨ v = .name "FULL") := by
  rintro (rfl | rfl) <;> simp [asMode] at h

end Sys2Proof.Machine
end

