-- ==== Sys2Proof/Laws/Symbolic.lean ====
section
/-! SUPPORT. Laws of the core: lengths, elements and legality of the vectors each operation produces, canonical
forms, and the length check. -/

namespace Sys2Proof.Machine

/-! ## The widths of a configuration -/

@[simp] theorem Config.widths_w (c : Config) : c.widths.w = c.w := rfl

@[simp] theorem Config.widths_n (c : Config) : c.widths.n = c.n := rfl

/-! ## Elements of vectors written position by position -/

theorem getD_map_range {α : Type} (n k : Nat) (f : Nat → α) (a : α) :
    ((List.range n).map f).getD k a = if k < n then f k else a := by
  by_cases h : k < n
  · simp [List.getD, h]
  · simp [List.getD, h]

/-- A vector is legal exactly when it has `W` elements and each is a legal term. -/
theorem vectorLegal_iff {wd : Widths} {v : StateVector} :
    vectorLegal wd v = true ↔ v.length = wd.w ∧ ∀ t ∈ v, t < 2 ^ (wd.w + wd.n) := by
  simp [vectorLegal, termLegal]

theorem vectorLegal_length {wd : Widths} {v : StateVector} (h : vectorLegal wd v = true) :
    v.length = wd.w := (vectorLegal_iff.1 h).1

/-- Every element of a legal vector, and the default, is a legal term. -/
theorem vectorLegal_getD {wd : Widths} {v : StateVector} (h : vectorLegal wd v = true) (k : Nat) :
    v.getD k 0 < 2 ^ (wd.w + wd.n) := by
  by_cases hk : k < v.length
  · rw [List.getD_eq_getElem _ _ hk]
    exact (vectorLegal_iff.1 h).2 _ (List.getElem_mem hk)
  · rw [List.getD_eq_default _ _ (by omega)]
    exact Nat.two_pow_pos _

/-- Two vectors of the same length with the same elements are the same. -/
theorem vector_ext {v u : StateVector} (hl : v.length = u.length)
    (h : ∀ k, k < v.length → v.getD k 0 = u.getD k 0) : v = u := by
  refine List.ext_getElem hl fun k h1 h2 => ?_
  have := h k h1
  rwa [List.getD_eq_getElem _ _ h1, List.getD_eq_getElem _ _ h2] at this

/-! ## The identity vector and the processing order -/

@[simp] theorem idVector_length (w : Nat) : (idVector w).length = w := by simp [idVector]

theorem getD_idVector {w k : Nat} (h : k < w) : (idVector w).getD k 0 = 2 ^ k := by
  rw [idVector, getD_map_range, if_pos h]

theorem vectorLegal_idVector (wd : Widths) : vectorLegal wd (idVector wd.w) = true := by
  refine vectorLegal_iff.2 ⟨idVector_length _, fun t ht => ?_⟩
  obtain ⟨k, hk, rfl⟩ := List.mem_map.1 ht
  exact Nat.pow_lt_pow_right (by omega) (by have := List.mem_range.1 hk; omega)

@[simp] theorem procOrder_length (n : Nat) (r : Bool) : (procOrder n r).length = n := by
  cases r <;> simp [procOrder]

theorem mem_procOrder {n j : Nat} {r : Bool} : j ∈ procOrder n r ↔ j < n := by
  cases r <;> simp [procOrder]

/-- Entry `p` of the processing order. -/
theorem getElem?_procOrder {n p : Nat} (r : Bool) (h : p < n) :
    (procOrder n r)[p]? = some (if r then p else n - 1 - p) := by
  cases r
  · simp [procOrder, h]
  · simp [procOrder, h]

/-! ## The symbolic step -/

@[simp] theorem symStep_length (c : Config) (sv : StateVector) (j : Nat) :
    (symStep c sv j).length = c.w := by simp [symStep]

/-- What one step puts at each position (R113). -/
theorem getD_symStep (c : Config) (sv : StateVector) (j : Nat) {k : Nat} (h : k < c.w) :
    (symStep c sv j).getD k 0 =
      termXor (if 1 ≤ k then sv.getD (k - 1) 0 else 0)
        (if c.poly.testBit k then feedback c.widths sv j else 0) := by
  rw [symStep, getD_map_range, if_pos h]

theorem termXor_lt {m t u : Nat} (ht : t < 2 ^ m) (hu : u < 2 ^ m) : termXor t u < 2 ^ m :=
  Nat.xor_lt_two_pow ht hu

theorem feedback_lt {wd : Widths} {sv : StateVector} (h : vectorLegal wd sv = true) {j : Nat}
    (hj : j < wd.n) : feedback wd sv j < 2 ^ (wd.w + wd.n) :=
  termXor_lt (vectorLegal_getD h _) (packSym_lt (by simp [Symbol.legal, hj]))

/-- A step keeps the vector legal (R25). -/
theorem vectorLegal_symStep {c : Config} {sv : StateVector} (h : vectorLegal c.widths sv = true)
    {j : Nat} (hj : j < c.n) : vectorLegal c.widths (symStep c sv j) = true := by
  refine vectorLegal_iff.2 ⟨symStep_length c sv j, fun t ht => ?_⟩
  obtain ⟨k, -, rfl⟩ := List.mem_map.1 ht
  refine termXor_lt ?_ ?_
  · split
    · exact vectorLegal_getD h _
    · exact Nat.two_pow_pos _
  · split
    · exact feedback_lt h hj
    · exact Nat.two_pow_pos _

/-- A fold of steps keeps the vector legal (R114). -/
theorem vectorLegal_unrollFrom {c : Config} {js : List Nat} (hj : ∀ j ∈ js, j < c.n) :
    ∀ {sv : StateVector}, vectorLegal c.widths sv = true →
      vectorLegal c.widths (unrollFrom c sv js) = true := by
  induction js with
  | nil => exact fun h => h
  | cons j js ih =>
    intro sv h
    exact ih (fun k hk => hj k (List.mem_cons_of_mem _ hk))
      (vectorLegal_symStep h (hj j List.mem_cons_self))

theorem vectorLegal_unroll (c : Config) : vectorLegal c.widths (unroll c) = true :=
  vectorLegal_unrollFrom (fun _ hj => mem_procOrder.1 hj) (vectorLegal_idVector c.widths)

@[simp] theorem unroll_length (c : Config) : (unroll c).length = c.w :=
  vectorLegal_length (vectorLegal_unroll c)

/-! ## The output map -/

@[simp] theorem outmap_length (c : Config) (sv : StateVector) : (outmap c sv).length = c.w := by
  simp [outmap]

theorem getD_outmap (c : Config) (sv : StateVector) {j : Nat} (h : j < c.w) (a : OutTerm) :
    (outmap c sv).getD j a = ⟨sv.getD (outSource c j) 0, c.xorout.testBit j⟩ := by
  rw [outmap, getD_map_range, if_pos h]

theorem outSource_lt {c : Config} {j : Nat} (h : j < c.w) : outSource c j < c.w := by
  unfold outSource
  split <;> omega

/-! ## Canonical forms -/

theorem mem_canon {wd : Widths} {l : SymbolList} {m : Symbol} :
    m ∈ canon wd l ↔ m.legal wd = true ∧ l.count m % 2 = 1 := by
  simp [canon, mem_allSymbols]

theorem nodup_canon (wd : Widths) (l : SymbolList) : (canon wd l).Nodup :=
  (nodup_allSymbols wd).filter _

/-- A list in pairwise ascending rank is ascending. -/
theorem ascending_of_pairwise (wd : Widths) :
    ∀ {l : SymbolList}, l.Pairwise (fun a b => a.rank wd < b.rank wd) → ascending wd l = true
  | [], _ => rfl
  | [_], _ => rfl
  | a :: b :: l, h => by
    rw [List.pairwise_cons] at h
    simp [ascending, h.1 b (by simp), ascending_of_pairwise wd h.2]

theorem pairwise_allSymbols (wd : Widths) :
    (allSymbols wd).Pairwise (fun a b => a.rank wd < b.rank wd) := by
  refine List.pairwise_append.2 ⟨?_, ?_, ?_⟩
  · rw [List.pairwise_map]
    exact List.pairwise_lt_range
  · rw [List.pairwise_map]
    exact List.pairwise_lt_range.imp fun h => by simp [Symbol.rank]; omega
  · intro a ha b hb
    simp only [List.mem_map, List.mem_range] at ha hb
    obtain ⟨i, hi, rfl⟩ := ha
    obtain ⟨j, -, rfl⟩ := hb
    simp [Symbol.rank]
    omega

/-- A selection of the Symbols, kept in their order, is ascending (R141). -/
theorem ascending_filter (wd : Widths) (p : Symbol → Bool) :
    ascending wd ((allSymbols wd).filter p) = true :=
  ascending_of_pairwise wd ((pairwise_allSymbols wd).filter p)

theorem canon_legal (wd : Widths) (l : SymbolList) : (canon wd l).all (Symbol.legal wd) = true := by
  rw [List.all_eq_true]
  exact fun m hm => (mem_canon.1 hm).1

/-- The canonical form of a list is the list of members of its packed term. -/
theorem canon_eq_members {wd : Widths} {l : SymbolList} (h : l.all (Symbol.legal wd) = true) :
    canon wd l = members wd (packSyms wd l) := by
  refine List.filter_congr fun m hm => ?_
  rw [testBit_packSyms h (mem_allSymbols.1 hm)]

@[simp] theorem canonVec_length (wd : Widths) (sv : StateVector) : (canonVec wd sv).length = sv.length := by
  simp [canonVec]

@[simp] theorem canonOutVec_length (wd : Widths) (ov : OutVector) :
    (canonOutVec wd ov).length = ov.length := by
  simp [canonOutVec]

/-- The length check passes exactly on two vectors of `W` elements (R142). -/
theorem lengthCheck_none {w : Nat} {sv : List SymbolList} {ov : List OutList} :
    lengthCheck w sv ov = none ↔ sv.length = w ∧ ov.length = w := by
  unfold lengthCheck
  split <;> simp <;> omega

/-- What the length check reports (R201). -/
theorem lengthCheck_some {w : Nat} {sv : List SymbolList} {ov : List OutList} {e : LengthError}
    (h : lengthCheck w sv ov = some e) :
    e = ⟨16, sv.length, ov.length, w⟩ ∧ (sv.length ≠ w ∨ ov.length ≠ w) := by
  unfold lengthCheck at h
  split at h
  · exact ⟨(Option.some.inj h).symm, by assumption⟩
  · exact absurd h (by simp)

/-! ## The numeric functions -/

theorem vectorValue_lt (wd : Widths) (sv : StateVector) (s d : Nat) :
    vectorValue wd sv s d < 2 ^ wd.w := ofBits_lt _ _

theorem testBit_vectorValue (wd : Widths) (sv : StateVector) (s d : Nat) {k : Nat} (h : k < wd.w) :
    (vectorValue wd sv s d).testBit k = evalTerm wd (sv.getD k 0) s d := by
  rw [vectorValue, testBit_ofBits]
  simp [h]

theorem testBit_outValue (wd : Widths) (ov : OutVector) (s d : Nat) {j : Nat} (h : j < wd.w) :
    (outValue wd ov s d).testBit j = evalOut wd (ov.getD j ⟨0, false⟩) s d := by
  rw [outValue, testBit_ofBits]
  simp [h]

theorem post_lt {c : Config} (h : c.xorout < 2 ^ c.w) {v : Nat} (hv : v < 2 ^ c.w) :
    post c v < 2 ^ c.w := by
  unfold post
  split
  · exact Nat.xor_lt_two_pow (rev_lt _ _) h
  · exact Nat.xor_lt_two_pow hv h

end Sys2Proof.Machine
end

