-- ==== Sys2Proof/Laws/Safety.lean ====
section
/-! SUPPORT. Laws of the terms claims are made in: legal output vectors, canonical vectors and the equations they
state, and running lists of instructions. -/

namespace Sys2Proof.Machine

/-! ## Output vectors -/

theorem outLegal_iff {wd : Widths} {v : OutVector} :
    outLegal wd v = true ↔ v.length = wd.w ∧ ∀ o ∈ v, o.term < 2 ^ (wd.w + wd.n) := by
  simp [outLegal, termLegal]

theorem outLegal_outmap {c : Config} {sv : StateVector} (h : vectorLegal c.widths sv = true) :
    outLegal c.widths (outmap c sv) = true := by
  refine outLegal_iff.2 ⟨outmap_length c sv, fun o ho => ?_⟩
  obtain ⟨j, -, rfl⟩ := List.mem_map.1 ho
  exact vectorLegal_getD h _

/-! ## Canonical vectors and the equations they state -/

/-- The canonical form of a term is the list of its members: CANON only sorts there (R140). -/
theorem canon_members {wd : Widths} {t : XorTerm} (ht : t < 2 ^ (wd.w + wd.n)) :
    canon wd (members wd t) = members wd t := by
  rw [canon_eq_members (members_legal wd t), packSyms_members ht]

/-- A canonicalized legal vector states the equations it came from (R157). -/
theorem packVec_canonVec {wd : Widths} {v : StateVector} (h : ∀ t ∈ v, t < 2 ^ (wd.w + wd.n)) :
    packVec wd (canonVec wd v) = v := by
  unfold packVec canonVec
  rw [List.map_map]
  conv_rhs => rw [← List.map_id v]
  refine List.map_congr_left fun t ht => ?_
  simp [canon_members (h t ht), packSyms_members (h t ht)]

theorem packOutVec_canonOutVec {wd : Widths} {v : OutVector} (h : ∀ o ∈ v, o.term < 2 ^ (wd.w + wd.n)) :
    packOutVec wd (canonOutVec wd v) = v := by
  unfold packOutVec canonOutVec
  rw [List.map_map]
  conv_rhs => rw [← List.map_id v]
  refine List.map_congr_left fun o ho => ?_
  simp [canonOut, canon_members (h o ho), packSyms_members (h o ho)]

/-- A literal canonical vector states legal equations. -/
theorem vectorLegal_packVec {wd : Widths} {v : List SymbolList} (h : canonVector wd v = true) :
    vectorLegal wd (packVec wd v) = true := by
  simp only [canonVector, canonVectorAny, Bool.and_eq_true, beq_iff_eq, List.all_eq_true] at h
  refine vectorLegal_iff.2 ⟨by simpa [packVec] using h.1, fun t ht => ?_⟩
  obtain ⟨l, hl, rfl⟩ := List.mem_map.1 ht
  have := h.2 l hl
  simp only [canonLegal, Bool.and_eq_true] at this
  exact packSyms_lt this.1

theorem outLegal_packOutVec {wd : Widths} {v : List OutList} (h : canonOutVector wd v = true) :
    outLegal wd (packOutVec wd v) = true := by
  simp only [canonOutVector, canonOutAny, Bool.and_eq_true, beq_iff_eq, List.all_eq_true] at h
  refine outLegal_iff.2 ⟨by simpa [packOutVec] using h.1, fun t ht => ?_⟩
  obtain ⟨o, ho, rfl⟩ := List.mem_map.1 ht
  have := h.2 o ho
  simp only [canonLegal, Bool.and_eq_true] at this
  exact packSyms_lt this.1

/-! ## Running -/

@[simp] theorem execAll_nil (s : State) : execAll [] s = .next s := rfl

theorem execAll_cons {i : Instr} {l : List Instr} {s t : State} (h : exec i s = .next t) :
    execAll (i :: l) s = execAll l t := by
  simp [execAll, h]

theorem execAll_append {k : List Instr} : ∀ {l : List Instr} {s t : State},
    execAll l s = .next t → execAll (l ++ k) s = execAll k t
  | [], s, t, h => by simp at h; simp [h]
  | i :: l, s, t, h => by
    rw [List.cons_append]
    cases hi : exec i s with
    | next u =>
      rw [execAll_cons hi] at h ⊢
      exact execAll_append h
    | fault f => simp [execAll, hi] at h
    | refused r => simp [execAll, hi] at h

/-- A run of the host's interface peels off one step. -/
theorem run_succ {s t : State} (h : step s = .next t) (k : Nat) :
    Host.Core.run Sys2Proof.core (k + 1) s = Host.Core.run Sys2Proof.core k t := by
  have h' : Sys2Proof.core.step s = .next t := h
  simp [Host.Core.run, h']

end Sys2Proof.Machine
end

