-- ==== Sys2Proof/Tests/Slice0.lean ====
section
/-! SUPPORT. Tests of the model: checks of well-formedness, decoding of words written out from the encodings,
one or two vectors of 95_test_vectors.md per operation (each test names its vector), and, for every statement with
hypotheses, a concrete state and operands that meet them. -/

namespace Sys2Proof.Tests

open Sys2Proof Sys2Proof.Machine

set_option maxRecDepth 8192

/-! ## Configurations and small states -/

/-- `TOY1` of 95_test_vectors.md. -/
def toy1 : Config := ⟨3, 3, 1, false, false, 0, 0, .bare⟩

/-- `TOY2`. -/
def toy2 : Config := ⟨3, 3, 2, false, true, 5, 6, .full⟩

/-- `CRC32`. -/
def crc32 : Config := ⟨32, 0x04C11DB7, 8, true, true, 0xFFFFFFFF, 0xFFFFFFFF, .full⟩

/-- `CCITT`. -/
def ccitt : Config := ⟨16, 0x1021, 8, false, false, 0xFFFF, 0, .full⟩

theorem toy1_valid : toy1.Valid := by unfold Config.Valid; decide

theorem toy2_valid : toy2.Valid := by unfold Config.Valid; decide

/-- A run that has just resolved a configuration. -/
def configured (c : Config) : State := (State.reset.startRun (rawOf c)).configure c

/-- A run that has unrolled it and mapped its outputs. -/
def mapped (c : Config) : State :=
  ((configured c).setVector (unroll c) c.n).setOut (outmap c (unroll c))

/-- A run that has ended with its text. -/
def ended (c : Config) : State := (mapped c).finish [] (circuitOf c)

/-- A run that has ended in an error. -/
def failed (c : Config) : State := (configured c).raise (.internal ⟨16, 2, 3, 3⟩)

/-- A circuit and what its register holds. -/
def built (c : Config) (v : Option Nat) : State :=
  { State.reset with circuit := some (circuitOf c), stateReg := v }

/-- The next state of an answer. -/
def nextOf : Answer → Option State
  | .next t => some t
  | _ => none

/-- The result an answer leaves in the generator. -/
def resultOf (a : Answer) : Option Result := (nextOf a).bind State.result

/-- The register an answer leaves, and the CRC it shows. -/
def registerOf (a : Answer) : Option (Option Nat × Option Nat) :=
  (nextOf a).map fun t => (t.stateReg, t.crcOut)

def isFault : Answer → Bool
  | .fault _ => true
  | _ => false

def refusalOf : Answer → Option Refusal
  | .refused r => some r
  | _ => none

/-- A term from its Symbols. -/
def pack (c : Config) (l : SymbolList) : XorTerm := packSyms c.widths l

/-! ## Well-formedness: one ill-formed operand for each check -/

/-- R23: `S_3` and `D_1` are no Symbols where `W = 3` and `N = 1`. -/
theorem test_illformed_symbols :
    Symbol.legal ⟨3, 1⟩ (.state 3) = false ∧ Symbol.legal ⟨3, 1⟩ (.input 1) = false ∧
    Instr.wellFormed ⟨3, 1⟩ (.termXor (.syms [.state 3]) (.packed 0)) = false ∧
    Instr.wellFormed ⟨3, 1⟩ (.canon (.list [.input 1])) = false ∧
    Instr.wellFormed ⟨3, 1⟩ (.canon (.out [.input 1] true)) = false := by decide

/-- R24, R51: the index space has `W + N` positions. -/
theorem test_illformed_packed :
    Instr.wellFormed ⟨3, 1⟩ (.termXor (.packed 16) (.packed 0)) = false ∧
    Instr.wellFormed ⟨3, 1⟩ (.termXor (.packed 0) (.packed 16)) = false ∧
    Instr.wellFormed ⟨3, 1⟩ (.termXor (.packed 15) (.packed 15)) = true := by decide

/-- R25: a StateVector has `W` elements; R113: `j` is an input Symbol's index. -/
theorem test_illformed_vectors :
    Instr.wellFormed ⟨3, 1⟩ (.symStep (.lit [1, 2]) (.lit 0)) = false ∧
    Instr.wellFormed ⟨3, 1⟩ (.symStep (.lit [1, 2, 16]) (.lit 0)) = false ∧
    Instr.wellFormed ⟨3, 1⟩ (.symStep (.lit [1, 2, 4]) (.lit 1)) = false ∧
    Instr.wellFormed ⟨3, 1⟩ (.outmap (.lit [1, 2, 4, 1])) = false ∧
    Instr.wellFormed ⟨3, 1⟩ (.symStep (.lit [1, 2, 4]) (.lit 0)) = true := by decide

/-- R140, R141: a canonical term has no repeat and keeps the order; R152: the Emitter takes `W` of them. -/
theorem test_illformed_canonical :
    Instr.wellFormed ⟨3, 1⟩ (.emitFull (.lit [[.state 1, .state 1], [], []])) = false ∧
    Instr.wellFormed ⟨3, 1⟩ (.emitFull (.lit [[.input 0, .state 1], [], []])) = false ∧
    Instr.wellFormed ⟨3, 1⟩ (.emitFull (.lit [[], []])) = false ∧
    Instr.wellFormed ⟨3, 1⟩ (.emitBare (.lit [[], [], []]) (.lit [⟨[], true⟩])) = false ∧
    Instr.wellFormed ⟨3, 1⟩ (.emitBare .held (.lit [⟨[.state 3], true⟩, ⟨[], true⟩, ⟨[], true⟩])) = false ∧
    Instr.wellFormed ⟨3, 1⟩ (.checkLen (.lit [[.state 3]]) .held) = false ∧
    Instr.wellFormed ⟨3, 1⟩ (.checkLen .held (.lit [⟨[.input 1], false⟩])) = false ∧
    Instr.wellFormed ⟨3, 1⟩ (.checkLen (.lit [[]]) (.lit [])) = true := by decide

/-- Elements of held vectors, and words that do not fit `W` or `N` bits (R57, R118). -/
theorem test_illformed_words :
    Instr.wellFormed ⟨3, 1⟩ (.termXor (.svAt 3) (.packed 0)) = false ∧
    Instr.wellFormed ⟨3, 1⟩ (.canon (.svAt 3)) = false ∧ Instr.wellFormed ⟨3, 1⟩ (.canon (.ovAt 3)) = false ∧
    Instr.wellFormed ⟨3, 1⟩ (.eval (.ovAt 3) 0 0) = false ∧
    Instr.wellFormed ⟨3, 1⟩ (.eval (.term (.packed 0)) 8 0) = false ∧
    Instr.wellFormed ⟨3, 1⟩ (.eval (.out (.packed 0) true) 7 2) = false ∧
    Instr.wellFormed ⟨3, 1⟩ (.cycReset false 2) = false ∧ Instr.wellFormed ⟨3, 1⟩ (.cycUpdate 2) = false ∧
    Instr.wellFormed ⟨3, 1⟩ (.cycHold 2) = false ∧ Instr.wellFormed ⟨3, 1⟩ (.combEval 8 0) = false ∧
    Instr.wellFormed ⟨3, 1⟩ (.combEval 7 2) = false := by decide

/-! ## Decoding: a word of every constructor, written out from R71 to R74 -/

/-- The `GEN` words, R74. -/
theorem test_decode_gen :
    decode ⟨3, 1⟩ ⟨.gen, 0x0, { raw := .lit (rawOf toy1) }⟩ = .ok (.resolve (.lit (rawOf toy1))) ∧
    decode ⟨3, 1⟩ ⟨.gen, 0x1, { t := .packed 12, u := .packed 5 }⟩ = .ok (.termXor (.packed 12) (.packed 5)) ∧
    decode ⟨3, 1⟩ ⟨.gen, 0x2, { j := .lit 0 }⟩ = .ok (.symStep .held (.lit 0)) ∧
    decode ⟨3, 1⟩ ⟨.gen, 0x3, {}⟩ = .ok .unroll ∧
    decode ⟨3, 1⟩ ⟨.gen, 0x4, {}⟩ = .ok (.outmap .held) ∧
    decode ⟨3, 1⟩ ⟨.gen, 0x5, { canonOf := .svAt 2 }⟩ = .ok (.canon (.svAt 2)) ∧
    decode ⟨3, 1⟩ ⟨.gen, 0x6, {}⟩ = .ok (.checkLen .held .held) ∧
    decode ⟨3, 1⟩ ⟨.gen, 0x7, {}⟩ = .ok (.emitBare .held .held) ∧
    decode ⟨3, 1⟩ ⟨.gen, 0x8, {}⟩ = .ok (.emitFull .held) ∧
    decode ⟨3, 1⟩ ⟨.gen, 0x9, {}⟩ = .ok (.generate .held) ∧
    decode ⟨3, 1⟩ ⟨.gen, 0xA, { evalOf := .ovAt 1, s := 5, d := 1 }⟩ = .ok (.eval (.ovAt 1) 5 1) := by decide

/-- The cycle words of programs P3 (`TOY2`) and P2 (`CCITT`). -/
theorem test_decode_cyc :
    decode ⟨3, 2⟩ ⟨.cyc, 0x2, {}⟩ = .ok (.cycReset false 0) ∧
    decode ⟨3, 2⟩ ⟨.cyc, 0xF, {}⟩ = .ok (.cycReset true 3) ∧
    decode ⟨3, 2⟩ ⟨.cyc, 0x9, {}⟩ = .ok (.cycUpdate 2) ∧
    decode ⟨3, 2⟩ ⟨.cyc, 0xD, {}⟩ = .ok (.cycUpdate 3) ∧
    decode ⟨3, 2⟩ ⟨.cyc, 0x0, {}⟩ = .ok (.cycHold 0) ∧
    decode ⟨3, 2⟩ ⟨.cyc, 0xC, {}⟩ = .ok (.cycHold 3) ∧
    decode ⟨16, 8⟩ ⟨.cyc, 0x105, {}⟩ = .ok (.cycUpdate 0x41) ∧
    decode ⟨32, 32⟩ ⟨.cyc, 0x0D0CCC8C5, {}⟩ = .ok (.cycUpdate 0x34333231) := by decide

/-- R73: `s` above `d`; with `W = 3` and `N = 2` the word is `s * 4 + d`. -/
theorem test_decode_comb :
    decode ⟨3, 2⟩ ⟨.comb, 0x16, {}⟩ = .ok (.combEval 5 2) ∧
    decode ⟨3, 2⟩ ⟨.comb, 0x1F, {}⟩ = .ok (.combEval 7 3) := by decide

/-- R77, and words that do not fit their format (R70). -/
theorem test_decode_refuses :
    decode ⟨3, 2⟩ ⟨.gen, 0xB, {}⟩ = .bad (.reservedOp 0xB) ∧
    decode ⟨3, 2⟩ ⟨.gen, 0xF, {}⟩ = .bad (.reservedOp 0xF) ∧
    decode ⟨3, 2⟩ ⟨.gen, 0x10, {}⟩ = .bad (.wordTooWide .gen 0x10) ∧
    decode ⟨3, 2⟩ ⟨.cyc, 0x10, {}⟩ = .bad (.wordTooWide .cyc 0x10) ∧
    decode ⟨3, 2⟩ ⟨.comb, 0x20, {}⟩ = .bad (.wordTooWide .comb 0x20) := by decide

/-- The table's words are read, placed and run as the first operation after reset. -/
theorem test_table_words :
    decodeTableWord 8 0x3 = some .unroll ∧ decodeTableWord 8 0xB = none ∧
    decodeTableWord 8 0x11 = some (.cycUpdate 4) ∧ decodeTableWord 2 0x2 = some (.cycReset false 0) ∧
    decodeTableWord 0 0x0 = some (.combEval 0 0) ∧
    (nextOf (step (State.reset.withFetchWord 8 0x3))).isSome = true ∧
    (nextOf (step (State.reset.withFetchWord 8 0x7))).isSome = true ∧
    (nextOf (step (State.reset.withFetchWord 8 0x12))).isSome = true ∧
    (nextOf (step (State.reset.withFetchWord 0 0x0))).isSome = true := by decide

/-! ## RESOLVE -/

/-- V51: `N` omitted is 8. -/
theorem test_resolve_default_n :
    resolveTuple ⟨.int 16, .int 0x1021, none, .int 0, .int 0, .int 0xFFFF, .int 0, .name "BARE"⟩ =
      .ok ⟨16, 0x1021, 8, false, false, 0xFFFF, 0, .bare⟩ := by decide

/-- V67, V57, V58, V62, V66: the first illegal field in check order is named. -/
theorem test_resolve_names_first :
    resolveTuple ⟨.int 8, .int 0x107, some (.int 0), .int 2, .int 0, .int 0x100, .int 0, .name "VHDL"⟩ =
      .bad .poly ∧
    resolveTuple ⟨.int 8, .int (-1), some (.int 8), .int 0, .int 0, .int 0, .int 0, .name "BARE"⟩ = .bad .poly ∧
    resolveTuple ⟨.int 0, .int 0x107, some (.int 8), .int 0, .int 0, .int 0, .int 0, .name "BARE"⟩ = .bad .w ∧
    resolveTuple ⟨.int 8, .int 7, some (.int 8), .int 2, .int 0, .int 0, .int 0, .name "BARE"⟩ = .bad .refin ∧
    resolveTuple ⟨.int 8, .int 7, some (.int 8), .int 0, .int 0, .int 0, .int 0, .name "VHDL"⟩ = .bad .mode ∧
    configError .mode = ⟨7, "MODE", "BARE, FULL"⟩ ∧ configError .poly = ⟨1, "POLY", "0 .. 2^W - 1"⟩ := by decide

/-! ## The simulator -/

/-- V70 and V71: `{S2, D0} + {S0, S2} = {S0, D0}`. -/
theorem test_term_xor :
    resultOf (exec (.termXor (.syms [.state 2, .input 0]) (.syms [.state 0, .state 2])) (configured toy1)) =
      some (.term 0b1001) ∧
    resultOf (exec (.termXor (.packed 0b1100) (.packed 0b0101)) (configured toy1)) = some (.term 0b1001) ∧
    pack toy1 [.state 0, .input 0] = 0b1001 := by decide

/-- V80, and V83 with an even polynomial. -/
theorem test_sym_step :
    symStep toy1 (idVector 3) 0 =
      [pack toy1 [.state 2, .input 0], pack toy1 [.state 0, .state 2, .input 0], pack toy1 [.state 1]] ∧
    symStep { toy1 with poly := 2 } (idVector 3) 0 =
      [0, pack toy1 [.state 0, .state 2, .input 0], pack toy1 [.state 1]] := by decide

/-- V81 then V82: two held steps of `TOY2` give V91. -/
theorem test_sym_step_order :
    (nextOf (execAll [.symStep .held .held, .symStep .held .held] (configured toy2))).bind State.sv =
      some [pack toy2 [.state 1, .input 0], pack toy2 [.state 1, .state 2, .input 0, .input 1],
        pack toy2 [.state 0, .state 2, .input 1]] := by decide

/-- V92 and V97. -/
theorem test_unroll :
    unroll { toy2 with refin := true } =
      [pack toy2 [.state 1, .input 1], pack toy2 [.state 1, .state 2, .input 0, .input 1],
        pack toy2 [.state 0, .state 2, .input 0]] ∧
    canonVec ⟨2, 5⟩ (unroll ⟨2, 3, 5, false, false, 0, 0, .bare⟩) =
      [[.state 0, .state 1, .input 0, .input 1, .input 3, .input 4],
        [.state 0, .input 0, .input 2, .input 3]] := by decide

/-- V110 and V111. -/
theorem test_outmap :
    (nextOf (exec (.outmap .held) (mapped toy2))).bind State.ov =
      some [⟨pack toy2 [.state 0, .state 2, .input 1], false⟩,
        ⟨pack toy2 [.state 1, .state 2, .input 0, .input 1], true⟩, ⟨pack toy2 [.state 1, .input 0], true⟩] ∧
    outmap toy2 (idVector 3) = [⟨4, false⟩, ⟨2, true⟩, ⟨1, true⟩] := by decide

/-- V120 to V123. -/
theorem test_eval :
    resultOf (exec (.eval (.term (.syms [.state 0, .state 2, .input 0])) 5 1) (configured toy1)) =
      some (.bit true) ∧
    resultOf (exec (.eval (.term (.packed 0)) 7 1) (configured toy1)) = some (.bit false) ∧
    resultOf (exec (.eval (.out (.packed 0) true) 7 1) (configured toy1)) = some (.bit true) ∧
    resultOf (exec (.eval (.out (.syms [.state 1]) true) 2 0) (configured toy1)) = some (.bit false) := by decide

/-- V126: two columns of the next-state table of `TOY1`; and `post` of `TOY2`. -/
theorem test_next_post :
    (List.range 8).map (fun s => next toy1 s 0) = [0, 2, 4, 6, 3, 1, 7, 5] ∧
    (List.range 8).map (fun s => next toy1 s 1) = [3, 1, 7, 5, 0, 2, 4, 6] ∧
    post toy2 5 = 3 ∧ post toy2 4 = 7 := by decide

/-! ## The canonicalizer -/

/-- V130 and V135. -/
theorem test_canon :
    resultOf (exec (.canon (.list [.input 0, .state 2, .state 0, .state 2, .input 0, .input 1]))
      (configured toy2)) = some (.canonTerm [.state 0, .input 1]) ∧
    resultOf (exec (.canon (.out [.state 1, .state 1] true)) (configured toy2)) =
      some (.canonOut ⟨[], true⟩) := by decide

/-- V140 and V142. -/
theorem test_check_len :
    resultOf (exec (.checkLen .held .held) (mapped toy1)) = some .unit ∧
    resultOf (exec (.checkLen (.lit [[], []]) (.lit [⟨[], false⟩, ⟨[], false⟩, ⟨[], false⟩]))
      (mapped toy1)) = some (.error (.internal ⟨16, 2, 3, 3⟩)) := by decide

/-! ## The emitter -/

/-- V152: empty terms render as the constant 0. -/
theorem test_emit_bare :
    resultOf (exec (.emitBare .held .held) (mapped ⟨3, 0, 2, false, false, 0, 0, .bare⟩)) = some (.text
      ("assign state_out[0] = 1'b0;\nassign state_out[1] = 1'b0;\nassign state_out[2] = (state_in[0]);\n".toList ++
       "assign crc_out[0] = 1'b0;\nassign crc_out[1] = 1'b0;\nassign crc_out[2] = (state_in[0]);\n".toList)) := by
  decide

/-- V153: a constant-1 output. -/
theorem test_emit_bare_constant :
    resultOf (exec (.emitBare .held .held) (mapped ⟨1, 0, 1, false, false, 0, 1, .bare⟩)) = some (.text
      "assign state_out[0] = 1'b0;\nassign crc_out[0] = (1'b1);\n".toList) := by decide

/-- V160: the module of `TOY2`. -/
theorem test_emit_full :
    resultOf (exec (.emitFull .held) (mapped toy2)) = some (.text
      ("module crc (\n    input  wire clk,\n    input  wire rst,\n    input  wire [1:0] data_in,\n".toList ++
       "    input  wire data_en,\n    output wire [2:0] crc_out\n);\n".toList ++
       "reg  [2:0] state_reg;\nwire [2:0] state_out;\n".toList ++
       "assign state_out[0] = (state_reg[1] ^ data_in[0]);\n".toList ++
       "assign state_out[1] = (state_reg[1] ^ state_reg[2] ^ data_in[0] ^ data_in[1]);\n".toList ++
       "assign state_out[2] = (state_reg[0] ^ state_reg[2] ^ data_in[1]);\n".toList ++
       "always @(posedge clk) begin\n    if (rst) state_reg <= 3'h5;\n".toList ++
       "    else if (data_en) state_reg <= state_out;\nend\n".toList ++
       "assign crc_out[0] = (state_reg[2]);\nassign crc_out[1] = (state_reg[1] ^ 1'b1);\n".toList ++
       "assign crc_out[2] = (state_reg[0] ^ 1'b1);\nendmodule\n".toList)) := by decide

/-- V171: the text of V150. -/
theorem test_generate :
    resultOf (exec (.generate (.lit (rawOf toy1))) State.reset) = some (.text
      ("assign state_out[0] = (state_in[2] ^ data_in[0]);\n".toList ++
       "assign state_out[1] = (state_in[0] ^ state_in[2] ^ data_in[0]);\n".toList ++
       "assign state_out[2] = (state_in[1]);\n".toList ++
       "assign crc_out[0] = (state_in[2] ^ data_in[0]);\n".toList ++
       "assign crc_out[1] = (state_in[0] ^ state_in[2] ^ data_in[0]);\n".toList ++
       "assign crc_out[2] = (state_in[1]);\n".toList)) := by decide

/-- V173: an illegal tuple gives the error and no text. -/
theorem test_generate_fails :
    (nextOf (exec (.generate (.lit { rawOf toy1 with poly := .int 8 })) (ended toy1))).map
      (fun t => (t.result, t.text, t.cfg)) =
      some (some (.error (.config ⟨1, "POLY", "0 .. 2^W - 1"⟩)), none, none) := by decide

/-! ## The circuit -/

/-- V182 and V183: reset wins over an update. -/
theorem test_cyc_reset :
    registerOf (exec (.cycReset false 0) (built toy2 none)) = some (some 5, some 3) ∧
    registerOf (exec (.cycReset true 3) (built toy2 (some 4))) = some (some 5, some 3) := by decide

/-- V184, V187 and V180. -/
theorem test_cyc_update :
    registerOf (exec (.cycUpdate 2) (built toy2 (some 5))) = some (some 4, some 7) ∧
    registerOf (exec (.cycUpdate 3) (built toy2 (some 4))) = some (some 3, some 0) ∧
    registerOf (exec (.cycUpdate 3) (built toy2 none)) = some (none, none) := by decide

/-- V186 and V181. -/
theorem test_cyc_hold :
    registerOf (exec (.cycHold 3) (built toy2 (some 4))) = some (some 4, some 7) ∧
    registerOf (exec (.cycHold 0) (built toy2 none)) = some (none, none) := by decide

/-- V190 and V191. -/
theorem test_comb_eval :
    (nextOf (exec (.combEval 5 1) (built toy1 none))).bind State.observed = some (.bare 2 2) ∧
    (nextOf (exec (.combEval 4 1) (built toy1 none))).bind State.observed = some (.bare 0 0) := by decide

/-- P6: reading before the first reset faults. -/
theorem test_read_before_reset :
    isFault (readCrcOut (built ccitt none)) = true ∧ isFault (readStateReg (built ccitt none)) = true := by decide

/-! ## The assembler -/

/-- P3's lines and words (R80). -/
theorem test_assemble_words :
    assemble (some toy2) .reset = .ok [.op ⟨.cyc, 0x2, {}⟩] ∧
    assemble (some toy2) (.resetEn 3) = .ok [.op ⟨.cyc, 0xF, {}⟩] ∧
    assemble (some toy2) (.message [2, 3]) = .ok [.op ⟨.cyc, 0x9, {}⟩, .op ⟨.cyc, 0xD, {}⟩] ∧
    assemble (some toy2) (.holdD 3) = .ok [.op ⟨.cyc, 0xC, {}⟩] ∧
    assemble (some toy2) (.update 4) = .bad (.valueTooWide 4) ∧
    assemble (some toy1) (.comb 5 1) = .ok [.op ⟨.comb, 0xB, {}⟩] := by decide

/-- V40, V41: byte lanes; three bytes do not fill 16-bit words (R57). -/
theorem test_assemble_bytes :
    assemble (some { crc32 with n := 32 }) (.bytes [0x31, 0x32, 0x33, 0x34]) =
      .ok [.op ⟨.cyc, 0x34333231 * 4 + 1, {}⟩] ∧
    assemble (some { ccitt with n := 16 }) (.bytes [0x31, 0x32]) = .ok [.op ⟨.cyc, 0x3132 * 4 + 1, {}⟩] ∧
    assemble (some { ccitt with n := 16 }) (.bytes [0x31, 0x32, 0x33]) = .bad .notWholeWords := by decide

/-- The text of a few lines (R80, R81). -/
theorem test_parse_lines :
    parseLine "update 0x31".toList = some (.update 0x31) ∧
    parseLine "comb 5, 1".toList = some (.comb 5 1) ∧
    parseLine "crc \"12\"".toList = some (.crc [0x31, 0x32]) ∧
    parseLine "resolve W=3 POLY=8 N=1 REFIN=0 REFOUT=0 INIT=0 XOROUT=0 MODE=BARE".toList =
      some (.resolve { w := some (.int 3), poly := some (.int 8), n := some (.int 1), refin := some (.int 0), refout := some (.int 0), init := some (.int 0), xorout := some (.int 0), mode := some (.name "BARE") }) ∧
    parseLine "update".toList = none := by decide

/-- The fields of a resolve line in another order, with V57's negative polynomial; and the flag 1 is true (R20). -/
theorem test_parse_resolve :
    parseLine "resolve MODE=FULL POLY=-1 W=8".toList =
      some (.resolve { w := some (.int 8), poly := some (.int (-1)), mode := some (.name "FULL") }) ∧
    resolveTuple ⟨.int 1, .int 1, none, .int 1, .int 0, .int 0, .int 0, .name "BARE"⟩ =
      .ok ⟨1, 1, 8, true, false, 0, 0, .bare⟩ := by decide

/-- The function applications of R80, with the operands of V70 and V123 and of program P5a. -/
theorem test_parse_apply :
    parseLine "UNROLL(Cfg) ; op 0x3".toList = some (.apply 0x3 {} .held .held) ∧
    parseLine "OUTMAP(Cfg, sv)".toList = some (.apply 0x4 {} .held .held) ∧
    parseLine "EMIT_BARE(Cfg, sv, ov)".toList = some (.apply 0x7 {} .held .held) ∧
    parseLine "SYM_STEP(Cfg, sv, 0)".toList = some (.apply 0x2 { j := .lit 0 } .held .held) ∧
    parseLine "TERM_XOR(\x7BS_2, D_0\x7D, 5)".toList =
      some (.apply 0x1 { t := .syms [.state 2, .input 0], u := .packed 5 } .held .held) ∧
    parseLine "CANON([D_0, S_2, S_0])".toList =
      some (.apply 0x5 { canonOf := .list [.input 0, .state 2, .state 0] } .held .held) ∧
    parseLine "CANON(\x7BS_0\x7D)".toList = some (.apply 0x5 { canonOf := .list [.state 0] } .held .held) ∧
    parseLine "EVAL((\x7BS_1\x7D, 1), 2, 0)".toList =
      some (.apply 0xA { evalOf := .out (.syms [.state 1]) true, s := 2 } .held .held) ∧
    parseLine "UNROLL(sv)".toList = none := by decide

/-- The decoded instruction of a single assembled operation word. -/
def assembledInstr (c : Config) (a : Assembled) : Option Decoded :=
  match a with
  | .ok [.op x] => some (decode c.widths x)
  | _ => none

/-- The CHECK_LEN example of R142, and a SYM_STEP on terms in each written form: a set, a list and a packed number. -/
theorem test_assemble_vectors :
    assembledInstr toy1 (assembleText (some toy1)
      ["CHECK_LEN(Cfg, [\x7BS_2,D_0\x7D,\x7BS_0,S_2,D_0\x7D,\x7BS_1\x7D], ov)".toList]) =
      some (.ok (.checkLen
        (.lit [[.state 2, .input 0], [.state 0, .state 2, .input 0], [.state 1]]) .held)) ∧
    assembledInstr toy1 (assembleText (some toy1) ["SYM_STEP(Cfg, [\x7BS_0\x7D, [S_1], 8], 0)".toList]) =
      some (.ok (.symStep (.lit [1, 2, 8]) (.lit 0))) := by decide

/-- A written term that the configuration does not have is refused (R23), and so is a packed number outside the index
space (R51). -/
theorem test_assemble_vectors_refused :
    assembleText (some toy1) ["EMIT_FULL(Cfg, [\x7BS_3\x7D])".toList] = .bad (.illegalSymbol (.state 3)) ∧
    assembleText (some toy1) ["EMIT_BARE(Cfg, sv, [(16, 1)])".toList] = .bad (.valueTooWide 16) := by decide

/-- Blank and comment lines say nothing, and a comment may follow a string; a quote inside a string is refused. -/
theorem test_parse_comments :
    parseLines ["".toList, "  ; note".toList, "crc \"1;\" ; note".toList] = some [.crc [0x31, 0x3B]] ∧
    parseLine "crc \"1\"2\"".toList = none := by decide

/-! ## Witnesses: a state and operands that meet the hypotheses of each statement -/

/-- A state that meets the invariant and is not the reset state: a run that has resolved `TOY2`, beside a circuit of
`TOY2` whose register holds 5. -/
def busy : State := { configured toy2 with circuit := some (circuitOf toy2), stateReg := some 5 }

theorem busy_inv : Inv busy where
  cfgValid := by
    intro c h
    cases h
    exact toy2_valid
  atStart := by decide
  atConfigured := by decide
  atDone := by decide
  atFailed := by
    intro e h
    cases h
  noConfig := by decide
  vector := by
    intro c v _ h
    cases h
  outs := by
    intro c v _ h
    cases h
  position := by
    intro c h
    cases h
    decide
  circuitOk := by
    intro ci h
    cases h
    exact ⟨toy2_valid, by decide, by decide⟩
  register := by
    intro v h
    cases h
    exact ⟨circuitOf toy2, by decide, by decide⟩

/-- StepRunsDecodedInstruction. -/
theorem witness_step_runs :
    ∃ s : State, s.pending = [.op ⟨.gen, 0x3, {}⟩] ∧ s.widthsFor .gen = some ⟨3, 2⟩ ∧
      decode ⟨3, 2⟩ ⟨.gen, 0x3, {}⟩ = .ok .unroll ∧ s.neverReached .gen .unroll = false ∧
      Instr.unroll.wellFormed ⟨3, 2⟩ = true :=
  ⟨busy.setPending [.op ⟨.gen, 0x3, {}⟩], by decide⟩

/-- StepWithoutInstruction: each of its clauses. -/
theorem witness_step_without :
    State.reset.pending = [] ∧ (busy.setPending [.readState]).pending = [.readState] ∧
    (busy.setPending [.readCrc]).pending = [.readCrc] ∧ State.reset.widthsFor .cyc = none ∧ State.reset.widthsFor .comb = none ∧
    busy.widthsFor .gen = some ⟨3, 2⟩ ∧ decode ⟨3, 2⟩ ⟨.gen, 0xC, {}⟩ = .bad (.reservedOp 0xC) ∧
    (failed toy2).widthsFor .gen = some ⟨3, 2⟩ ∧ decode ⟨3, 2⟩ ⟨.gen, 0x9, {}⟩ = .ok (.generate .held) ∧
    (failed toy2).neverReached .gen (.generate .held) = true ∧
    decode ⟨3, 2⟩ ⟨.gen, 0x1, { t := .packed 32 }⟩ = .ok (.termXor (.packed 32) (.packed 0)) ∧
    busy.neverReached .gen (.termXor (.packed 32) (.packed 0)) = false ∧
    Instr.wellFormed ⟨3, 2⟩ (.termXor (.packed 32) (.packed 0)) = false ∧
    2 ^ formatBits ⟨3, 2⟩ .cyc ≤ 0x10 := by decide

/-- ReservedOpcodesAreRefused and EveryCycAndCombWordIsLegal, at the ends of their ranges. -/
theorem witness_words :
    (busy.setPending [.op ⟨.gen, 0xF, {}⟩]).pending = [.op ⟨.gen, 0xF, {}⟩] ∧ 0xF < 2 ^ (2 + 2) ∧
    0x1F < 2 ^ (3 + 2) := by decide

/-- OpcodeMapDecodes: a reserved op code, and words with data. -/
theorem witness_opcode_map : 0xB ≤ 0xF ∧ 3 < 2 ^ 2 ∧ 7 < 2 ^ 3 := by decide

/-- DecodeOfEncodeIsIdentity: an instruction of each format. -/
theorem witness_encode :
    Instr.wellFormed ⟨3, 2⟩ (.eval (.ovAt 2) 7 3) = true ∧ Instr.wellFormed ⟨3, 2⟩ (.cycReset true 3) = true ∧
    Instr.wellFormed ⟨3, 2⟩ (.combEval 7 3) = true := by decide

/-- ResolveSucceedsExactlyInRange: a tuple that resolves. -/
theorem witness_resolve : resolveTuple (rawOf toy2) = .ok toy2 := by decide

/-- ResolveConfiguresLegalTuple: both tuples and both sources. -/
theorem witness_resolve_configures :
    toy2.Valid ∧ crc32.n = 8 ∧ (State.reset.startRun (rawOf toy2)).raw = some (rawOf toy2) ∧
    resolveTuple { rawOf crc32 with n := none } = .ok crc32 := ⟨toy2_valid, by decide⟩

/-- IllegalTupleEndsTheRun and FailedRunReachesNothingMore (program P5b). -/
theorem witness_failed_run :
    resolveTuple { rawOf toy1 with poly := .int 8 } = .bad .poly ∧
    decode ⟨0, 0⟩ ⟨.gen, 0x9, {}⟩ = .ok (.generate .held) ∧ (Instr.generate .held).startsRun = false := by decide

/-- FailedRunReachesNothingMore: the pending inputs. -/
theorem witness_failed_pending :
    (State.reset.setPending
      [.op (encode ⟨0, 0⟩ (.resolve (.lit { rawOf toy1 with poly := .int 8 }))), .op ⟨.gen, 0x9, {}⟩]).pending =
      .op (encode ⟨0, 0⟩ (.resolve (.lit { rawOf toy1 with poly := .int 8 }))) ::
        [(⟨.gen, 0x9, {}⟩ : OpWord)].map .op := by decide

/-- OperationsNeedConfigOrCircuit: each of its clauses, after reset. -/
theorem witness_operations_need :
    State.reset.cfg = none ∧ isCircuitOp .unroll = false ∧ beginsWithResolve .unroll = false ∧
    State.reset.fullModule = none ∧ State.reset.bareLogic = none := by decide

/-- TermXorIsSymmetricDifference, CanonSortsOddSymbols, LengthCheckNeverFires: a held configuration. -/
theorem witness_config : busy.cfg = some toy2 := by decide

/-- TermOperandForms: legal Symbols, a held vector, and none. -/
theorem witness_term_forms :
    [Symbol.state 2, .input 1, .input 1].all (Symbol.legal toy2.widths) = true ∧
    (mapped toy2).sv = some (unroll toy2) ∧ 2 < (unroll toy2).length ∧ busy.sv = none ∧ 2 < toy2.w := by decide

/-- SymStepIsOneLfsrStep: the last input bit, and a position with a successor. -/
theorem witness_sym_step :
    busy.cfg = some toy2 ∧ toy2.Valid ∧ vectorLegal toy2.widths (idVector 3) = true ∧ 1 < toy2.n ∧ 1 + 1 < toy2.w :=
  ⟨by decide, toy2_valid, by decide⟩

/-- SymStepFollowsProcessingOrder: before the last bit, and after it. -/
theorem witness_sym_step_order :
    (configured toy2).cfg = some toy2 ∧ (configured toy2).pos < toy2.n ∧ (mapped toy2).cfg = some toy2 ∧
    toy2.n ≤ (mapped toy2).pos := by decide

/-- UnrollEqualsItsSteps. -/
theorem witness_unroll_steps :
    (configured toy2).cfg = some toy2 ∧ 1 ≤ toy2.n ∧ (configured toy2).sv = none ∧ (configured toy2).pos = 0 := by
  decide

/-- UnrollIsExact: the greatest values. -/
theorem witness_unroll_exact :
    busy.cfg = some toy2 ∧ toy2.Valid ∧ 7 < 2 ^ toy2.w ∧ 3 < 2 ^ toy2.n ∧ 2 < toy2.w :=
  ⟨by decide, toy2_valid, by decide⟩

/-- UnrollingComposes: a split of the processing order. -/
theorem witness_unrolling_composes :
    procOrder toy2.n toy2.refin = [1] ++ [0] ∧ toy2.Valid ∧ 7 < 2 ^ toy2.w ∧ 3 < 2 ^ toy2.n :=
  ⟨by decide, toy2_valid, by decide⟩

/-- DegenerateConfigurations: one of each kind. -/
theorem witness_degenerate :
    (⟨3, 0, 2, false, false, 0, 0, .bare⟩ : Config).Valid ∧ (⟨1, 1, 3, false, false, 0, 0, .bare⟩ : Config).Valid ∧
    (⟨1, 0, 4, false, false, 0, 0, .bare⟩ : Config).Valid := by unfold Config.Valid; decide

/-- ReflectInputRenamesInputs. -/
theorem witness_reflect :
    toy2.w = ({ toy2 with refin := true } : Config).w ∧ toy2.poly = ({ toy2 with refin := true } : Config).poly ∧
    toy2.n = ({ toy2 with refin := true } : Config).n ∧ 2 < toy2.w ∧ toy2.refin = false ∧ 1 < toy2.n := by decide

/-- UnrolledTermsAreCanonicalizable, OutputTermsEqualPostOfNext, PostReflectsThenMasks. -/
theorem witness_valid : toy2.Valid ∧ 7 < 2 ^ toy2.w ∧ 2 < toy2.w := ⟨toy2_valid, by decide⟩

/-- OutmapMapsPositions: a held vector. -/
theorem witness_outmap : (mapped toy2).cfg = some toy2 ∧ (mapped toy2).svNow toy2 = unroll toy2 := by decide

/-- EvalIsParityOfSetMembers: an element of the held output vector. -/
theorem witness_eval :
    (mapped toy2).cfg = some toy2 ∧ (mapped toy2).ov = some (outmap toy2 (unroll toy2)) ∧
    (outmap toy2 (unroll toy2))[2]? = some ⟨pack toy2 [.state 1, .input 0], true⟩ ∧
    readTerm toy2 (mapped toy2) (.svAt 0) = pack toy2 [.state 1, .input 0] := by decide

/-- CanonSortsOddSymbols: a list without repeats of legal Symbols. -/
theorem witness_canon :
    [Symbol.input 1, .state 2].Nodup ∧ [Symbol.input 1, .state 2].all (Symbol.legal toy2.widths) = true := by decide

/-- CanonOfHeldElements: each of its clauses. -/
theorem witness_canon_held :
    (mapped toy2).cfg = some toy2 ∧ (mapped toy2).sv = some (unroll toy2) ∧ 2 < (unroll toy2).length ∧
    busy.cfg = some toy2 ∧ busy.sv = none ∧ 2 < toy2.w ∧ (mapped toy2).ov = some (outmap toy2 (unroll toy2)) ∧
    (outmap toy2 (unroll toy2))[0]? = some ⟨pack toy2 [.state 0, .state 2, .input 1], false⟩ := by decide

/-- CheckLenPassesFullLength and CheckLenRaisesOnOtherLength: each clause. -/
theorem witness_check_len :
    (mapped toy1).cfg = some toy1 ∧ ([[], [], []] : List SymbolList).length = toy1.w ∧
    ([[], []] : List SymbolList).length ≠ toy1.w ∧ (mapped toy1).stage = .configured ∧ (ended toy1).stage = .done ∧
    (ended toy1).cfg = some toy1 := by decide

/-- EmitBareWritesItsLines and EmitFullWritesTheModule. -/
theorem witness_emit :
    (mapped toy1).cfg = some toy1 ∧ toy1.mode = .bare ∧ (mapped toy1).runFailed = false ∧
    (mapped toy2).cfg = some toy2 ∧ toy2.mode = .full ∧ (mapped toy2).runFailed = false ∧
    (canonVec toy1.widths (unroll toy1)).length = toy1.w ∧ (canonVec toy2.widths (unroll toy2)).length = toy2.w ∧
    (canonOutVec toy1.widths (outmap toy1 (unroll toy1))).length = toy1.w := by decide

/-- EmitterRefusals: each of its clauses. -/
theorem witness_emitter_refusals :
    (mapped toy2).cfg = some toy2 ∧ toy2.mode = .full ∧ (mapped toy1).cfg = some toy1 ∧ toy1.mode = .bare ∧
    (failed toy1).cfg = some toy1 ∧ (failed toy1).runFailed = true ∧ (failed toy2).cfg = some toy2 ∧
    (failed toy2).runFailed = true := by decide

/-- NumbersReadBack: the greatest value of a width that fills no whole digit. -/
theorem witness_numbers : 7 < 2 ^ 3 ∧ (10 : Nat) ≠ 0 := by decide

/-- GenerateEmitsTheCircuit and GenerateEqualsItsOperations: both sources, and both outcomes of RESOLVE. -/
theorem witness_generate :
    toy2.Valid ∧ (configured toy2).raw = some (rawOf toy2) ∧ (configured toy2).cfg = some toy2 ∧
    (configured toy2).runFailed = false ∧ resolveTuple (rawOf toy2) = .ok toy2 ∧
    resolveTuple { rawOf toy2 with init := .int 8 } = .bad .init := ⟨toy2_valid, by decide⟩

/-- RunIsFunctionOfTuple: two states, one tuple. -/
theorem witness_same_tuple :
    (nextOf (exec (.resolve (.lit (rawOf toy1))) State.reset)).isSome = true ∧
    (nextOf (exec (.resolve (.lit (rawOf toy1))) busy)).isSome = true := by decide

/-- CycResetLoadsInit, CycHoldKeepsRegister, HostReadsSeeRegisterAndPost: a full module, with and without a value. -/
theorem witness_full_module :
    (built toy2 none).fullModule = some (circuitOf toy2) ∧ (built toy2 (some 4)).fullModule = some (circuitOf toy2) ∧
    3 < 2 ^ (circuitOf toy2).cfg.n ∧ (built toy2 none).stateReg = none ∧ (built toy2 (some 4)).stateReg = some 4 ∧
    (nextOf (exec (.cycReset false 0) (built toy2 none))).map State.stateReg = some (some 5) := by decide

/-- CycUpdateAbsorbsWord and UpdateEvaluatesEveryEquation. -/
theorem witness_update :
    (built toy2 (some 7)).circuit = some (circuitOf toy2) ∧ toy2.Valid ∧ toy2.mode = .full ∧ 3 < 2 ^ toy2.n ∧
    (built toy2 (some 7)).stateReg = some 7 ∧ 7 < 2 ^ toy2.w ∧ (built toy2 none).stateReg = none :=
  ⟨by decide, toy2_valid, by decide⟩

/-- NoValueBeforeFirstReset: a module that was never reset, and an emission that replaces a circuit. -/
theorem witness_no_value :
    (built toy2 none).fullModule = some (circuitOf toy2) ∧ (built toy2 none).stateReg = none ∧
    (nextOf (exec (.generate (.lit (rawOf toy1))) busy)).map (fun t => decide (t.circuit ≠ busy.circuit)) =
      some true := by decide

/-- DataMattersOnlyAtUpdates: the three control values. -/
theorem witness_data :
    decode ⟨3, 2⟩ (cycWord true true 3) = .ok (.cycReset true 3) ∧
    decode ⟨3, 2⟩ (cycWord true false 1) = .ok (.cycReset false 1) ∧
    decode ⟨3, 2⟩ (cycWord false false 3) = .ok (.cycHold 3) ∧ 3 < 2 ^ 2 := by decide

/-- MessageLaw. -/
theorem witness_message :
    toy2.Valid ∧ toy2.mode = .full ∧ (built toy2 none).circuit = some (circuitOf toy2) ∧
    ([Edge.update 3, .hold 1].map edgeData).all (fun d => decide (d < 2 ^ toy2.n)) = true :=
  ⟨toy2_valid, by decide⟩

/-- ByteLanesAgreeWithByteStream: two bytes in a 16-bit word. -/
theorem witness_byte_lanes :
    ({ ccitt with n := 16 } : Config).Valid ∧ 0xFFFF < 2 ^ ccitt.w ∧ ({ ccitt with n := 16 } : Config).n = 8 * 2 ∧
    [0xFF, 0x31].all (fun b => decide (b < 256)) = true := by unfold Config.Valid; decide

/-- CombEvalComputesNextAndPost and BareLogicRunsOneWordAhead. -/
theorem witness_comb :
    (built toy1 none).circuit = some (circuitOf toy1) ∧ toy1.Valid ∧ toy1.mode = .bare ∧
    (built { toy1 with mode := .full } (some 5)).circuit = some (circuitOf { toy1 with mode := .full }) ∧
    (nextOf (exec (.cycUpdate 1) (built { toy1 with mode := .full } (some 5)))).isSome = true :=
  ⟨by decide, toy1_valid, by decide⟩

/-- AgentsAreIndependent, ConfigurationIsImmutable, OnlyResetAndUpdateWriteRegister: instructions of each kind that
give a next state, and three that change the register. -/
theorem witness_frames :
    isCircuitOp (.cycUpdate 3) = true ∧ (nextOf (exec (.cycUpdate 3) busy)).map State.stateReg ≠ some busy.stateReg ∧
    (nextOf (exec (.cycReset false 3) (built toy2 none))).map State.stateReg ≠ some (built toy2 none).stateReg ∧
    isCircuitOp .unroll = false ∧ emits .unroll = false ∧ beginsWithResolve .unroll = false ∧
    (nextOf (exec .unroll busy)).isSome = true ∧ emits (.emitFull .held) = true ∧
    (nextOf (exec (.emitFull .held) busy)).map State.stateReg = some none := by decide

/-- StageMovesAsSpecified and StepKeepsInvariant: a state that meets the invariant, and moves from it. -/
theorem witness_invariant :
    Inv busy ∧ (nextOf (exec (.emitFull .held) busy)).map State.stage = some .done ∧
    (nextOf (exec (.resolve (.lit (rawOf toy1))) busy)).map State.stage = some .configured ∧
    (nextOf (exec (.generate .held) busy)).map State.stage = some .done ∧
    readRaw busy .held = some (rawOf toy2) ∧ resolveTuple (rawOf toy2) = .ok toy2 ∧
    resolveTuple { rawOf toy1 with poly := .int 8 } = .bad .poly ∧
    (nextOf (exec (.generate (.lit { rawOf toy1 with poly := .int 8 })) busy)).map State.stage =
      some (configStage .poly) ∧
    (nextOf (step (busy.setPending [.op ⟨.gen, 0x3, {}⟩]))).isSome = true := ⟨busy_inv, by decide⟩

/-- MessagesAssembleToUpdates and PartialWordsAreRefused: each of their clauses. -/
theorem witness_assembler :
    3 < 2 ^ toy2.n ∧ 2 ^ toy2.n ≤ 4 ∧ [3, 4, 5] = [3] ++ 4 :: [5] ∧ 1 ≤ ({ ccitt with n := 16 } : Config).n ∧
    ({ ccitt with n := 16 } : Config).n % 8 = 0 ∧ [0x31, 0x32, 0x33].length % (16 / 8) ≠ 0 ∧
    [0x31, 0x32].length % (16 / 8) = 0 := by decide

end Sys2Proof.Tests
end

section
/-! What each operation's meaning can have done where it answers a next state, said once per operation (the
`_next` lemmas, over those of the shared operations in Laws/Ops), and from it R21: who writes a configuration. -/

namespace Sys2Proof.Machine

variable {s t : State}

/-! ## RESOLVE -/

theorem execResolve_next {raw : Src RawTuple} (h : execResolve raw s = .next t) :
    ∃ r, readRaw s raw = some r ∧ t = s.resolveRun r := by
  unfold execResolve at h
  split at h
  · exact ⟨_, ‹_›, (Host.Outcome.next.inj h).symm⟩
  · exact nomatch h

/-- A run starts and is configured or fails without touching the circuit (R210). -/
@[simp] theorem State.resolveRun_circuit (s : State) (r : RawTuple) : (s.resolveRun r).circuit = s.circuit := by
  cases h : resolveTuple r with
  | ok c => simp [resolveRun_ok h]
  | bad f => simp [resolveRun_bad h]

/-! ## The simulator -/

theorem execTermXor_next {a b : TermSrc} (h : execTermXor a b s = .next t) :
    ∃ c, s.cfg = some c ∧ t = s.answer (.term (termXor (readTerm c s a) (readTerm c s b))) := by
  obtain ⟨c, hc, h⟩ := withConfig_next h
  exact ⟨c, hc, (Host.Outcome.next.inj h).symm⟩

theorem execSymStep_next {sv : Src StateVector} {j : Src Nat} (h : execSymStep sv j s = .next t) :
    ∃ c k, s.cfg = some c ∧ readIndex c s j = some k ∧
      t = s.setVector (symStep c (readVector c s sv) k) (posAfter c s.pos) := by
  obtain ⟨c, hc, h⟩ := withConfig_next h
  split at h
  · exact ⟨c, _, hc, ‹_›, (Host.Outcome.next.inj h).symm⟩
  · exact nomatch h

theorem execUnroll_next (h : execUnroll s = .next t) :
    ∃ c, s.cfg = some c ∧ t = s.setVector (unroll c) c.n := by
  obtain ⟨c, hc, h⟩ := withConfig_next h
  exact ⟨c, hc, (Host.Outcome.next.inj h).symm⟩

theorem execOutmap_next {sv : Src StateVector} (h : execOutmap sv s = .next t) :
    ∃ c, s.cfg = some c ∧ t = s.setOut (outmap c (readVector c s sv)) := by
  obtain ⟨c, hc, h⟩ := withConfig_next h
  exact ⟨c, hc, (Host.Outcome.next.inj h).symm⟩

theorem execEval_next {x : EvalSrc} {v d : Nat} (h : execEval x v d s = .next t) :
    ∃ c o, s.cfg = some c ∧ readEval c s x = some o ∧ t = s.answer (.bit (evalOut c.widths o v d)) := by
  obtain ⟨c, hc, h⟩ := withConfig_next h
  split at h
  · exact ⟨c, _, hc, ‹_›, (Host.Outcome.next.inj h).symm⟩
  · exact nomatch h

/-! ## The canonicalizer -/

theorem execCanon_next {x : CanonSrc} (h : execCanon x s = .next t) :
    ∃ c r, s.cfg = some c ∧ canonResult c s x = some r ∧ t = s.answer r := by
  obtain ⟨c, hc, h⟩ := withConfig_next h
  split at h
  · exact ⟨c, _, hc, ‹_›, (Host.Outcome.next.inj h).symm⟩
  · exact nomatch h

theorem execCheckLen_next {sv : Src (List SymbolList)} {ov : Src (List OutList)}
    (h : execCheckLen sv ov s = .next t) :
    ∃ c cov, s.cfg = some c ∧ readCanonOut c s ov = some cov ∧
      ((lengthCheck c.w (readCanonVec c s sv) cov = none ∧ t = s.answer .unit) ∨
       ∃ e, lengthCheck c.w (readCanonVec c s sv) cov = some e ∧
         (s.stage = .start ∨ s.stage = .configured) ∧ t = s.raise (.internal e)) := by
  obtain ⟨c, hc, h⟩ := withConfig_next h
  split at h
  · exact nomatch h
  · refine ⟨c, _, hc, ‹_›, ?_⟩
    split at h
    · exact .inl ⟨‹_›, (Host.Outcome.next.inj h).symm⟩
    · exact .inr ⟨_, ‹_›, raiseInRun_next h⟩

/-! ## The Emitter -/

theorem execEmitBare_next {sv : Src (List SymbolList)} {ov : Src (List OutList)}
    (h : execEmitBare sv ov s = .next t) :
    ∃ c cov, s.cfg = some c ∧ c.mode = .bare ∧ readCanonOut c s ov = some cov ∧ s.runFailed = false ∧
      t = s.finish (bareText (readCanonVec c s sv) cov) (bareCircuit c (readCanonVec c s sv) cov) := by
  obtain ⟨c, hc, h⟩ := withConfig_next h
  split at h
  · split at h
    · exact nomatch h
    · exact ⟨c, _, hc, ‹_›, ‹_›, finishRun_next h⟩
  · exact nomatch h

theorem execEmitFull_next {sv : Src (List SymbolList)} (h : execEmitFull sv s = .next t) :
    ∃ c, s.cfg = some c ∧ c.mode = .full ∧ s.runFailed = false ∧
      t = s.finish (fullText c (readCanonVec c s sv)) (fullCircuit c (readCanonVec c s sv)) := by
  obtain ⟨c, hc, h⟩ := withConfig_next h
  split at h
  · exact ⟨c, hc, ‹_›, finishRun_next h⟩
  · exact nomatch h

/-! ## The generated circuit -/

theorem execCycReset_next {en : Bool} {d : Nat} (h : execCycReset en d s = .next t) :
    ∃ ci, s.fullModule = some ci ∧ t = s.setReg (some ci.cfg.init) := by
  obtain ⟨ci, hci, h⟩ := withFull_next h
  exact ⟨ci, hci, (Host.Outcome.next.inj h).symm⟩

theorem execCycUpdate_next {d : Nat} (h : execCycUpdate d s = .next t) :
    ∃ ci, s.fullModule = some ci ∧ t = s.setReg (regAfter ci s.stateReg d) := by
  obtain ⟨ci, hci, h⟩ := withFull_next h
  exact ⟨ci, hci, (Host.Outcome.next.inj h).symm⟩

theorem execCycHold_next {d : Nat} (h : execCycHold d s = .next t) :
    ∃ ci, s.fullModule = some ci ∧ t = s := by
  obtain ⟨ci, hci, h⟩ := withFull_next h
  exact ⟨ci, hci, (Host.Outcome.next.inj h).symm⟩

theorem execCombEval_next {x y : Nat} (h : execCombEval x y s = .next t) :
    ∃ ci, s.bareLogic = some ci ∧
      t = s.observe (.bare (vectorValue ci.cfg.widths ci.next x y) (outValue ci.cfg.widths ci.out x y)) := by
  obtain ⟨ci, hci, h⟩ := withBare_next h
  exact ⟨ci, hci, (Host.Outcome.next.inj h).symm⟩

/-! ## R21 -/

/-- Settles O54, by cases on the instruction: each writes through one shared operation of the state, and only
`resolveRun` (RESOLVE, GENERATE) writes `cfg` and only `finish` (the Emitter, GENERATE) writes `circuit`. -/
theorem configurationIsImmutable : Obligations.ConfigurationIsImmutable := by
  unfold Obligations.ConfigurationIsImmutable
  intro i s t h
  cases i with
  | resolve raw =>
    obtain ⟨r, -, rfl⟩ := execResolve_next h
    simp [beginsWithResolve]
  | termXor a b =>
    obtain ⟨c, -, rfl⟩ := execTermXor_next h
    simp
  | symStep sv j =>
    obtain ⟨c, k, -, -, rfl⟩ := execSymStep_next h
    simp
  | unroll =>
    obtain ⟨c, -, rfl⟩ := execUnroll_next h
    simp
  | outmap sv =>
    obtain ⟨c, -, rfl⟩ := execOutmap_next h
    simp
  | canon x =>
    obtain ⟨c, r, -, -, rfl⟩ := execCanon_next h
    simp
  | checkLen sv ov =>
    obtain ⟨c, cov, -, -, ⟨-, rfl⟩ | ⟨e, -, -, rfl⟩⟩ := execCheckLen_next h
    · simp
    · simp
  | emitBare sv ov =>
    obtain ⟨c, cov, -, -, -, -, rfl⟩ := execEmitBare_next h
    simp [emits]
  | emitFull sv =>
    obtain ⟨c, -, -, -, rfl⟩ := execEmitFull_next h
    simp [emits]
  | generate raw => simp [beginsWithResolve, emits]
  | eval x v d =>
    obtain ⟨c, o, -, -, rfl⟩ := execEval_next h
    simp
  | cycReset en d =>
    obtain ⟨ci, -, rfl⟩ := execCycReset_next (en := en) (d := d) h
    simp
  | cycUpdate d =>
    obtain ⟨ci, -, rfl⟩ := execCycUpdate_next h
    simp
  | cycHold d =>
    obtain ⟨ci, -, rfl⟩ := execCycHold_next (d := d) h
    simp
  | combEval x y =>
    obtain ⟨ci, -, rfl⟩ := execCombEval_next h
    simp

end Sys2Proof.Machine
end

section
/-! R55: the bits of `post`, read through the output map's own positions. -/

namespace Sys2Proof.Machine

/-- `post` takes its bits from the positions that OUTMAP reads (R117), so that the number and the output vector agree
on which position output bit `j` comes from. -/
theorem testBit_post (c : Config) (v : Nat) {j : Nat} (hj : j < c.w) :
    (post c v).testBit j = (v.testBit (outSource c j) ^^ c.xorout.testBit j) := by
  unfold post outSource
  split
  · simp [testBit_rev, hj]
  · exact Nat.testBit_xor v c.xorout j

/-- Settles O28: the mask fits in `W` bits, so `post` does; its bits are those of the output map. -/
theorem postReflectsThenMasks : Obligations.PostReflectsThenMasks := by
  unfold Obligations.PostReflectsThenMasks
  intro c v j hc hv
  obtain ⟨-, -, -, -, hmask⟩ := hc
  refine ⟨post_lt hmask hv, fun hj => ?_⟩
  rw [testBit_post c v hj, outSource, apply_ite v.testBit]

end Sys2Proof.Machine
end

section
/-! R70 to R78: the words of the three formats. A `CYC` word is put together from its three fields and a `COMB` word
from its two, each in exactly one way; what decoding answers is said of the fields, so that no statement below takes
a number apart again. -/

namespace Sys2Proof.Machine

/-! ## The `GEN` words -/

theorem decode_gen (wd : Widths) {op : Nat} (h : op ≤ 0xF) (a : GenArgs) :
    decode wd ⟨.gen, op, a⟩ = decodeGen op a :=
  if_pos (show op < 2 ^ 4 by omega)

theorem decodeGen_reserved {op : Nat} (h : 0xB ≤ op) (a : GenArgs) :
    decodeGen op a = .bad (.reservedOp op) :=
  match op, h with
  | _ + 0xB, _ => rfl

theorem decodeGen_operation {op : Nat} (h : op < 0xB) (a : GenArgs) :
    ∃ i, decodeGen op a = .ok i ∧ isCircuitOp i = false := by
  interval_cases op <;> exact ⟨_, rfl, rfl⟩

/-! ## The `CYC` words -/

/-- The operation of the three fields of a `CYC` word (R74). -/
def cycInstr (rst en : Bool) (data : Nat) : Instr :=
  if rst then .cycReset en data else if en then .cycUpdate data else .cycHold data

theorem decodeCyc_eq_cycInstr (v : Nat) : decodeCyc v = cycInstr (cycRst v) (cycEn v) (cycData v) := by
  unfold decodeCyc
  cases cycRst v <;> cases cycEn v <;> rfl

@[simp] theorem encode_cycInstr (wd : Widths) (rst en : Bool) (data : Nat) :
    encode wd (cycInstr rst en data) = cycWord rst en data := by
  cases rst <;> cases en <;> rfl

@[simp] theorem wellFormed_cycInstr (wd : Widths) (rst en : Bool) (data : Nat) :
    (cycInstr rst en data).wellFormed wd = decide (data < 2 ^ wd.n) := by
  cases rst <;> cases en <;> rfl

@[simp] theorem cycData_cycWord (rst en : Bool) (data : Nat) : cycData (cycWord rst en data).word = data := by
  have hr := rst.toNat_le
  have he := en.toNat_le
  simp only [cycData, cycWord]
  omega

@[simp] theorem cycRst_cycWord (rst en : Bool) (data : Nat) : cycRst (cycWord rst en data).word = rst := by
  have hr := rst.toNat_le
  have he := en.toNat_le
  have hbit : (data * 4 + rst.toNat * 2 + en.toNat) / 2 ^ 1 % 2 = rst.toNat := by omega
  simp only [cycRst, cycWord, Nat.testBit_eq_decide_div_mod_eq, hbit]
  cases rst <;> rfl

@[simp] theorem cycEn_cycWord (rst en : Bool) (data : Nat) : cycEn (cycWord rst en data).word = en := by
  have he := en.toNat_le
  have hbit : (data * 4 + rst.toNat * 2 + en.toNat) / 2 ^ 0 % 2 = en.toNat := by omega
  simp only [cycEn, cycWord, Nat.testBit_eq_decide_div_mod_eq, hbit]
  cases en <;> rfl

/-- A number is the `CYC` word of its own fields: no bit is lost (R72). -/
theorem cycWord_fields (v : Nat) : (cycWord (cycRst v) (cycEn v) (cycData v)).word = v := by
  simp only [cycWord, cycRst, cycEn, cycData, Nat.toNat_testBit]
  omega

theorem exists_cycWord {n v : Nat} (h : v < 2 ^ (n + 2)) :
    ∃ rst en data, data < 2 ^ n ∧ (cycWord rst en data).word = v := by
  refine ⟨cycRst v, cycEn v, cycData v, ?_, cycWord_fields v⟩
  exact Nat.div_lt_of_lt_mul (by rwa [Nat.pow_add, Nat.mul_comm] at h)

theorem decode_cycWord {wd : Widths} {data : Nat} (h : data < 2 ^ wd.n) (rst en : Bool) (a : GenArgs) :
    decode wd ⟨.cyc, (cycWord rst en data).word, a⟩ = .ok (cycInstr rst en data) := by
  have hfit : (cycWord rst en data).word < 2 ^ formatBits wd .cyc := Laws.WordFits.cyc_fits rst en h
  calc decode wd ⟨.cyc, (cycWord rst en data).word, a⟩
      = .ok (decodeCyc (cycWord rst en data).word) := if_pos hfit
    _ = .ok (cycInstr rst en data) := by simp [decodeCyc_eq_cycInstr]

/-! ## The `COMB` words -/

theorem exists_combWord {wd : Widths} {v : Nat} (h : v < 2 ^ (wd.w + wd.n)) :
    ∃ x y, x < 2 ^ wd.w ∧ y < 2 ^ wd.n ∧ (combWord wd x y).word = v := by
  refine ⟨v / 2 ^ wd.n, v % 2 ^ wd.n, ?_, Nat.mod_lt v (Nat.two_pow_pos _), Nat.div_add_mod' v _⟩
  exact Nat.div_lt_of_lt_mul (by rwa [Nat.pow_add, Nat.mul_comm] at h)

theorem wellFormed_combEval {wd : Widths} {x y : Nat} (hx : x < 2 ^ wd.w) (hy : y < 2 ^ wd.n) :
    (Instr.combEval x y).wellFormed wd = true := by
  simp [Instr.wellFormed, hx, hy]

theorem decodeComb_combWord {wd : Widths} {y : Nat} (x : Nat) (hy : y < 2 ^ wd.n) :
    decodeComb wd (combWord wd x y).word = .combEval x y := by
  have hdiv : (x * 2 ^ wd.n + y) / 2 ^ wd.n = x := by
    rw [Nat.mul_comm, Nat.mul_add_div (Nat.two_pow_pos _), Nat.div_eq_of_lt hy, Nat.add_zero]
  have hmod : (x * 2 ^ wd.n + y) % 2 ^ wd.n = y := by
    rw [Nat.mul_add_mod', Nat.mod_eq_of_lt hy]
  simp only [decodeComb, combWord, hdiv, hmod]

theorem decode_combWord {wd : Widths} {x y : Nat} (hx : x < 2 ^ wd.w) (hy : y < 2 ^ wd.n) (a : GenArgs) :
    decode wd ⟨.comb, (combWord wd x y).word, a⟩ = .ok (.combEval x y) := by
  have hfit : (combWord wd x y).word < 2 ^ formatBits wd .comb :=
    Laws.WordFits.combEval x y wd (wellFormed_combEval hx hy)
  calc decode wd ⟨.comb, (combWord wd x y).word, a⟩
      = .ok (decodeComb wd (combWord wd x y).word) := if_pos hfit
    _ = .ok (.combEval x y) := by rw [decodeComb_combWord x hy]

/-! ## A step on a word that spells no operation -/

/-- The generator reads its words in every state, since they carry no width (R70). -/
theorem exists_widthsFor_gen (s : State) : ∃ wd, s.widthsFor .gen = some wd := by
  cases h : s.cfg with
  | none => exact ⟨⟨0, 0⟩, by simp [State.widthsFor, h]⟩
  | some c => exact ⟨c.widths, by simp [State.widthsFor, h]⟩

theorem step_undecodable {s : State} {x : OpWord} {l : List HostInput} {wd : Widths} {e : DecodeError}
    (hp : s.pending = .op x :: l) (hw : s.widthsFor x.fmt = some wd) (hd : decode wd x = .bad e) :
    step s = .refused (.undecodable e) := by
  have hw' : (s.setPending l).widthsFor x.fmt = some wd := hw
  have hf : fetch s = .refuse (.undecodable e) := by simp [fetch, hp, fetchOp, hw', hd]
  simp [step, hf]

/-! ## The statements -/

/-- Settles O6: a word is put together from its fields, and the operation of these fields is well-formed and encodes
to that word; CYC_RESET's meaning reads neither of its operands. -/
theorem everyCycAndCombWordIsLegal : Obligations.EveryCycAndCombWordIsLegal := by
  unfold Obligations.EveryCycAndCombWordIsLegal
  refine ⟨fun wd v hv => ?_, fun wd v hv => ?_, fun s e e' d d' => rfl⟩
  · obtain ⟨rst, en, data, hdata, rfl⟩ := exists_cycWord hv
    exact ⟨cycInstr rst en data, decode_cycWord hdata rst en {}, by simp [hdata], encode_cycInstr wd rst en data⟩
  · obtain ⟨x, y, hx, hy, rfl⟩ := exists_combWord hv
    exact ⟨.combEval x y, decode_combWord hx hy {}, wellFormed_combEval hx hy, rfl⟩

/-- Settles O4: the `GEN` rows one by one, and the fields of a `CYC` and of a `COMB` word. -/
theorem opcodeMapDecodes : Obligations.OpcodeMapDecodes := by
  unfold Obligations.OpcodeMapDecodes
  intro wd a
  refine ⟨rfl, rfl, rfl, rfl, rfl, rfl, rfl, rfl, rfl, rfl, rfl, fun op hlo hhi => ?_,
    fun data rst en hdata => decode_cycWord hdata rst en a, fun x y hx hy => decode_combWord hx hy a⟩
  rw [decode_gen wd hhi, decodeGen_reserved hlo]

/-- Settles O5: the decoder refuses a reserved op code under all widths, so the step does in every state; every other
word of a format is one of the words whose decoding is known. -/
theorem reservedOpcodesAreRefused : Obligations.ReservedOpcodesAreRefused := by
  unfold Obligations.ReservedOpcodesAreRefused
  refine ⟨fun s op a l hlo hhi hp => ?_, fun wd op a h => ?_, fun wd v a hv => ?_, fun wd v a hv => ?_⟩
  · obtain ⟨wd, hw⟩ := exists_widthsFor_gen s
    exact step_undecodable hp hw ((decode_gen wd hhi a).trans (decodeGen_reserved hlo a))
  · rw [decode_gen wd (by omega)]
    exact decodeGen_operation h a
  · obtain ⟨rst, en, data, hdata, rfl⟩ := exists_cycWord hv
    have hdec := decode_cycWord hdata rst en a
    match rst, en with
    | true, en => exact ⟨data, hdata, .inr (.inr ⟨en, hdec⟩)⟩
    | false, true => exact ⟨data, hdata, .inr (.inl hdec)⟩
    | false, false => exact ⟨data, hdata, .inl hdec⟩
  · obtain ⟨x, y, hx, hy, rfl⟩ := exists_combWord hv
    exact ⟨x, y, decode_combWord hx hy a⟩

end Sys2Proof.Machine
end

section
/-! R110 and R118: the set reading of packed terms. TERM_XOR is the symmetric difference of two sets of Symbols, and
EVAL the parity of the members whose bit is set. -/

namespace Sys2Proof.Machine

/-! ## The two operations where a configuration is held -/

theorem execTermXor_of_cfg {s : State} {c : Config} (hc : s.cfg = some c) (t u : TermSrc) :
    execTermXor t u s = .next (s.answer (.term (termXor (readTerm c s t) (readTerm c s u)))) :=
  withConfig_some hc _

theorem execEval_of_cfg {s : State} {c : Config} (hc : s.cfg = some c) {e : EvalSrc} {o : OutTerm}
    (ho : readEval c s e = some o) (x y : Nat) :
    execEval e x y s = .next (s.answer (.bit (evalOut c.widths o x y))) := by
  rw [execEval, withConfig_some hc, ho]

theorem readOutAt_of_getElem? {s : State} {v : OutVector} {j : Nat} {o : OutTerm} (hs : s.ov = some v)
    (hj : v[j]? = some o) : readOutAt s j = some o := by
  simp [readOutAt, hs, hj]

/-! ## Symmetric difference -/

theorem mem_members_termXor {wd : Widths} {t u : XorTerm} {m : Symbol} :
    m ∈ members wd (termXor t u) ↔ ¬ (m ∈ members wd t ↔ m ∈ members wd u) := by
  simp only [mem_members]
  by_cases hm : m.legal wd = true
  · simp only [hm, true_and]
    rw [termXor, Nat.testBit_xor, Bool.xor_iff_ne, ne_eq, Bool.eq_iff_iff]
  · simp [hm]

/-! ## Parity -/

/-- A GF(2) sum is the parity of the number of summands that are set (R8). -/
theorem xorBits_eq_countP (n : Nat) (f : Nat → Bool) :
    xorBits n f = ((List.range n).countP f % 2 == 1) := by
  induction n with
  | zero => rfl
  | succ n ih =>
    rw [xorBits_succ, ih, List.range_succ, List.countP_append, List.countP_singleton]
    rcases Nat.mod_two_eq_zero_or_one ((List.range n).countP f) with h | h <;>
      cases f n <;> simp [Nat.add_mod, h]

/-- The parity of a sum of two counts is the GF(2) sum of their parities. -/
theorem add_mod_two_beq_one (a b : Nat) : ((a + b) % 2 == 1) = ((a % 2 == 1) ^^ (b % 2 == 1)) := by
  rcases Nat.mod_two_eq_zero_or_one a with ha | ha <;>
    rcases Nat.mod_two_eq_zero_or_one b with hb | hb <;> simp [Nat.add_mod, ha, hb]

/-- The bit a Symbol denotes, in a register value `x` and an input word `y` (R23). -/
def symValue (x y : Nat) : Symbol → Bool
  | .state i => x.testBit i
  | .input j => y.testBit j

/-- The members of a term that satisfy `p`, counted over the `W` STATE Symbols and the `N` INPUT Symbols. -/
theorem countP_members (wd : Widths) (t : XorTerm) (p : Symbol → Bool) :
    (members wd t).countP p =
      (List.range wd.w).countP (fun i => t.testBit i && p (.state i)) +
        (List.range wd.n).countP (fun j => t.testBit (wd.w + j) && p (.input j)) := by
  rw [members, allSymbols, List.countP_filter, List.countP_append, List.countP_map, List.countP_map]
  simp only [Function.comp_def, symIndex_state, symIndex_input, Bool.and_comm]

/-- The two GF(2) sums of R118 count the members whose bit is set. -/
theorem evalTerm_eq_countP (wd : Widths) (t : XorTerm) (x y : Nat) :
    evalTerm wd t x y = ((members wd t).countP (symValue x y) % 2 == 1) := by
  rw [countP_members, add_mod_two_beq_one, ← xorBits_eq_countP, ← xorBits_eq_countP]
  rfl

/-! ## Linearity -/

@[simp] theorem evalTerm_zero_words (wd : Widths) (t : XorTerm) : evalTerm wd t 0 0 = false := by
  simp [evalTerm]

theorem evalTerm_xor_words (wd : Widths) (t : XorTerm) (x y x' y' : Nat) :
    evalTerm wd t (x ^^^ x') (y ^^^ y') = (evalTerm wd t x y ^^ evalTerm wd t x' y') := by
  simp only [evalTerm, Nat.testBit_xor, Bool.and_xor_distrib_left, xorBits_xor]
  simp only [Bool.xor_assoc, Bool.xor_left_comm]

/-! ## The statements -/

/-- Settles O15: the operation answers the packed XOR, whose bits say which Symbols are in exactly one operand. -/
theorem termXorIsSymmetricDifference : Obligations.TermXorIsSymmetricDifference := by
  unfold Obligations.TermXorIsSymmetricDifference
  intro s c t u hc
  exact ⟨execTermXor_of_cfg hc t u, fun m => mem_members_termXor,
    fun a b e => ⟨Nat.xor_self a, Nat.xor_zero a, Nat.xor_comm a b, Nat.xor_assoc a b e⟩⟩

/-- Settles O29: all three forms of the operand read as one output term, whose value is the parity of its members. -/
theorem evalIsParityOfSetMembers : Obligations.EvalIsParityOfSetMembers := by
  unfold Obligations.EvalIsParityOfSetMembers
  intro s c e t k x y hc he
  have ho : readEval c s e = some ⟨t, k⟩ := by
    obtain ⟨q, rfl, rfl, rfl⟩ | ⟨q, rfl, rfl⟩ | ⟨j, v, rfl, hv, hj⟩ := he
    · rfl
    · rfl
    · exact readOutAt_of_getElem? hv hj
  refine ⟨?_, evalTerm_zero _ x y, evalTerm_zero_words _ t, evalTerm_xor_words _ t x y⟩
  calc exec (.eval e x y) s
      = .next (s.answer (.bit (evalTerm c.widths t x y ^^ k))) := execEval_of_cfg hc ho x y
    _ = .next (s.answer (.bit (((members c.widths t).countP (symValue x y) % 2 == 1) ^^ k))) := by
        rw [evalTerm_eq_countP]

end Sys2Proof.Machine
end

section
/-! R140 and R141: CANON of a list. On a list without repeats a Symbol occurs an odd number of times exactly where it
is a member, so that canonicalizing a second time, or a set of legal Symbols, changes no membership. -/

namespace Sys2Proof.Machine

/-- Every CANON whose operand can be read answers its value and writes nothing else. -/
theorem execCanon_of_cfg {s : State} {c : Config} (hc : s.cfg = some c) {x : CanonSrc} {r : Result}
    (hr : canonResult c s x = some r) : execCanon x s = .next (s.answer r) := by
  rw [execCanon, withConfig_some hc, hr]

/-- CANON of a list, which can always be read. -/
theorem execCanon_list_of_cfg {s : State} {c : Config} (hc : s.cfg = some c) (l : SymbolList) :
    execCanon (.list l) s = .next (s.answer (.canonTerm (canon c.widths l))) :=
  execCanon_of_cfg hc rfl

theorem execCanon_out_of_cfg {s : State} {c : Config} (hc : s.cfg = some c) (l : SymbolList) (k : Bool) :
    execCanon (.out l k) s = .next (s.answer (.canonOut ⟨canon c.widths l, k⟩)) :=
  execCanon_of_cfg hc rfl

/-! ## Lists without repeats -/

theorem count_odd_iff_mem {l : SymbolList} (h : l.Nodup) (m : Symbol) : l.count m % 2 = 1 ↔ m ∈ l := by
  rw [h.count]
  split <;> simp [*]

theorem canon_canon (wd : Widths) (l : SymbolList) : canon wd (canon wd l) = canon wd l := by
  refine List.filter_congr fun m hm => ?_
  rw [Bool.eq_iff_iff, beq_iff_eq, beq_iff_eq, count_odd_iff_mem (nodup_canon wd l), mem_canon]
  exact and_iff_right (mem_allSymbols.1 hm)

theorem canon_perm {wd : Widths} {l : SymbolList} (h : l.Nodup) (hl : ∀ m ∈ l, m.legal wd = true) :
    (canon wd l).Perm l := by
  refine (List.perm_ext_iff_of_nodup (nodup_canon wd l) h).2 fun m => ?_
  rw [mem_canon, count_odd_iff_mem h]
  exact and_iff_right_of_imp (hl m)

/-! ## The canonical order -/

theorem pairwise_canon (wd : Widths) (l : SymbolList) :
    (canon wd l).Pairwise (fun a b => a.rank wd < b.rank wd) :=
  (pairwise_allSymbols wd).filter _

theorem rank_state_lt_input {wd : Widths} {i : Nat} (h : (Symbol.state i).legal wd = true) (j : Nat) :
    (Symbol.state i).rank wd < (Symbol.input j).rank wd := by
  simp only [Symbol.legal, decide_eq_true_eq] at h
  simp only [Symbol.rank]
  omega

/-- Settles O30: the order is that of the ranks, where no INPUT Symbol comes before a legal STATE Symbol. -/
theorem canonSortsOddSymbols : Obligations.CanonSortsOddSymbols := by
  unfold Obligations.CanonSortsOddSymbols
  intro s c l k hc
  refine ⟨canon c.widths l, execCanon_list_of_cfg hc l, execCanon_out_of_cfg hc l k, fun m => mem_canon,
    nodup_canon _ l, (pairwise_canon c.widths l).imp_of_mem fun {a b} _ hb hab => ?_, ?_, canon_perm⟩
  · match a, b with
    | .state i, .state j => exact hab
    | .state i, .input j => trivial
    | .input i, .state j => exact (rank_state_lt_input (mem_canon.1 hb).1 i).asymm hab
    | .input i, .input j => exact Nat.lt_of_add_lt_add_left hab
  · calc exec (.canon (.list (canon c.widths l))) s
        = .next (s.answer (.canonTerm (canon c.widths (canon c.widths l)))) := execCanon_list_of_cfg hc _
      _ = .next (s.answer (.canonTerm (canon c.widths l))) := by rw [canon_canon]

end Sys2Proof.Machine
end

section
/-! R173, R175 and R176: reset, hold and the host's reads on a full module's register. What an instruction can leave
in that register is said once, for every instruction (`stateReg_of_exec`). -/

namespace Sys2Proof.Machine

variable {s t : State} {ci : Circuit}

/-! ## What an instruction leaves in the register -/

@[simp] theorem State.resolveRun_stateReg (s : State) (r : RawTuple) : (s.resolveRun r).stateReg = s.stateReg := by
  cases h : resolveTuple r with
  | ok c => simp [resolveRun_ok h]
  | bad f => simp [resolveRun_bad h]

theorem State.pipeline_stateReg (s : State) (c : Config) :
    (s.pipeline c).stateReg = s.stateReg ∨ (s.pipeline c).stateReg = none := by
  unfold State.pipeline
  dsimp only
  split
  · exact .inl rfl
  · exact .inr rfl

theorem State.generateRun_stateReg (s : State) (r : RawTuple) :
    (s.generateRun r).stateReg = s.stateReg ∨ (s.generateRun r).stateReg = none := by
  unfold State.generateRun
  split
  · exact .inl (s.resolveRun_stateReg r)
  · simpa using (s.resolveRun r).pipeline_stateReg _

theorem execGenerate_next {raw : Src RawTuple} (h : execGenerate raw s = .next t) :
    ∃ r, readRaw s raw = some r ∧ t = s.generateRun r := by
  unfold execGenerate at h
  split at h
  · exact ⟨_, ‹_›, (Host.Outcome.next.inj h).symm⟩
  · exact nomatch h

/-- Everything an instruction can leave in the register (R31, R32): what was there, nothing in a new circuit, or what
a reset or an update writes. -/
theorem stateReg_of_exec {i : Instr} (h : exec i s = .next t) :
    t.stateReg = s.stateReg ∨ (emits i = true ∧ t.stateReg = none) ∨
    ∃ ci, s.fullModule = some ci ∧
      ((∃ e d, i = .cycReset e d ∧ t.stateReg = some ci.cfg.init) ∨
       (∃ d, i = .cycUpdate d ∧ t.stateReg = regAfter ci s.stateReg d)) := by
  cases i with
  | resolve raw =>
    obtain ⟨r, -, rfl⟩ := execResolve_next h
    exact .inl (s.resolveRun_stateReg r)
  | termXor a b =>
    obtain ⟨c, -, rfl⟩ := execTermXor_next h
    exact .inl rfl
  | symStep sv j =>
    obtain ⟨c, k, -, -, rfl⟩ := execSymStep_next h
    exact .inl rfl
  | unroll =>
    obtain ⟨c, -, rfl⟩ := execUnroll_next h
    exact .inl rfl
  | outmap sv =>
    obtain ⟨c, -, rfl⟩ := execOutmap_next h
    exact .inl rfl
  | canon x =>
    obtain ⟨c, r, -, -, rfl⟩ := execCanon_next h
    exact .inl rfl
  | checkLen sv ov =>
    obtain ⟨c, cov, -, -, ⟨-, rfl⟩ | ⟨e, -, -, rfl⟩⟩ := execCheckLen_next h
    · exact .inl rfl
    · exact .inl rfl
  | emitBare sv ov =>
    obtain ⟨c, cov, -, -, -, -, rfl⟩ := execEmitBare_next h
    exact .inr (.inl ⟨rfl, rfl⟩)
  | emitFull sv =>
    obtain ⟨c, -, -, -, rfl⟩ := execEmitFull_next h
    exact .inr (.inl ⟨rfl, rfl⟩)
  | generate raw =>
    obtain ⟨r, -, rfl⟩ := execGenerate_next h
    exact (s.generateRun_stateReg r).imp_right fun hnone => .inl ⟨rfl, hnone⟩
  | eval x v d =>
    obtain ⟨c, o, -, -, rfl⟩ := execEval_next h
    exact .inl rfl
  | cycReset en d =>
    obtain ⟨ci, hci, rfl⟩ := execCycReset_next (en := en) (d := d) h
    exact .inr (.inr ⟨ci, hci, .inl ⟨en, d, rfl, rfl⟩⟩)
  | cycUpdate d =>
    obtain ⟨ci, hci, rfl⟩ := execCycUpdate_next h
    exact .inr (.inr ⟨ci, hci, .inr ⟨d, rfl, rfl⟩⟩)
  | cycHold d =>
    obtain ⟨ci, -, rfl⟩ := execCycHold_next (d := d) h
    exact .inl rfl
  | combEval x y =>
    obtain ⟨ci, -, rfl⟩ := execCombEval_next h
    exact .inl rfl

/-- Only a reset gives a register that holds no value one (R173). -/
theorem cycReset_of_stateReg_ne_none {i : Instr} (h : exec i s = .next t) (hs : s.stateReg = none)
    (ht : t.stateReg ≠ none) : ∃ e d, i = .cycReset e d := by
  obtain hsame | ⟨-, hnone⟩ | ⟨ci, -, ⟨e, d, hi, -⟩ | ⟨d, -, hreg⟩⟩ := stateReg_of_exec h
  · exact absurd (hsame.trans hs) ht
  · exact absurd hnone ht
  · exact ⟨e, d, hi⟩
  · exact absurd (by rw [hreg, hs]; rfl) ht

/-! ## The cycle operations and the reads of a full module -/

theorem exec_cycReset (h : s.fullModule = some ci) (en : Bool) (d : Nat) :
    exec (.cycReset en d) s = .next (s.setReg (some ci.cfg.init)) :=
  withFull_some h _

theorem exec_cycHold (h : s.fullModule = some ci) (d : Nat) : exec (.cycHold d) s = .next s :=
  withFull_some h _

theorem execAll_eq_self {l : List Instr} (h : ∀ i ∈ l, exec i s = .next s) : execAll l s = .next s := by
  induction l with
  | nil => rfl
  | cons i l ih =>
    obtain ⟨hi, hl⟩ := List.forall_mem_cons.1 h
    rw [execAll_cons hi, ih hl]

theorem readStateReg_of_some (h : s.fullModule = some ci) {v : Nat} (hv : s.stateReg = some v) :
    readStateReg s = .next (s.observe (.state v)) := by
  simp [readStateReg, h, hv]

theorem readCrcOut_of_some (h : s.fullModule = some ci) {v : Nat} (hv : s.crcOut = some v) :
    readCrcOut s = .next (s.observe (.crcOut v)) := by
  simp [readCrcOut, h, hv]

theorem readCrcOut_of_none (h : s.fullModule = some ci) (hv : s.crcOut = none) :
    readCrcOut s = .fault .readBeforeReset := by
  simp [readCrcOut, h, hv]

/-! ## The statements -/

/-- Settles O42: a reset writes `INIT` whatever its operands are, so a second one writes what is there; an update of a
register without a value leaves it so, and every other instruction keeps or clears the register. -/
theorem cycResetLoadsInit : Obligations.CycResetLoadsInit := by
  unfold Obligations.CycResetLoadsInit
  refine ⟨fun s ci en data h hdata => ?_, fun i s t h hs ht => cycReset_of_stateReg_ne_none h hs ht⟩
  have hfull : (s.setReg (some ci.cfg.init)).fullModule = some ci := by rwa [State.setReg_fullModule]
  exact ⟨decode_cycWord hdata true en {}, s.setReg (some ci.cfg.init), rfl, exec_cycReset h en data,
    crcOut_of hfull, exec_cycReset hfull en data⟩

/-- Settles O45: one hold answers the state it ran in, so any number of holds does. -/
theorem cycHoldKeepsRegister : Obligations.CycHoldKeepsRegister := by
  unfold Obligations.CycHoldKeepsRegister
  intro s ci l h hl
  refine ⟨fun d hd => ⟨decode_cycWord (hl d hd) false false {}, exec_cycHold h d⟩,
    execAll_eq_self fun i hi => ?_⟩
  obtain ⟨d, -, rfl⟩ := List.mem_map.1 hi
  exact exec_cycHold h d

/-- Settles O47: `crc_out` is computed from the register alone, and a read answers the state with the observation. -/
theorem hostReadsSeeRegisterAndPost : Obligations.HostReadsSeeRegisterAndPost := by
  unfold Obligations.HostReadsSeeRegisterAndPost
  intro s ci h
  refine ⟨crcOut_of h, fun v hv => ?_, fun hnone => ?_⟩
  · have hcrc : s.crcOut = some (post ci.cfg v) := by rw [crcOut_of h, hv]; rfl
    exact ⟨readStateReg_of_some h hv, readCrcOut_of_some h hcrc⟩
  · have hcrc : s.crcOut = none := by rw [crcOut_of h, hnone]; rfl
    exact ⟨hcrc, readCrcOut_of_none h hcrc⟩

end Sys2Proof.Machine
end

section
/-! R70 to R78: decoding is the inverse of encoding, and what a step does with the word it fetches. -/

namespace Sys2Proof.Machine

/-! ## Decoding what was encoded -/

/-- Settles O7: a `GEN` word carries its operands beside it; a `CYC` and a `COMB` word are read field by field, where
well-formedness bounds the data. -/
theorem decodeOfEncodeIsIdentity : Obligations.DecodeOfEncodeIsIdentity := by
  unfold Obligations.DecodeOfEncodeIsIdentity
  intro wd i h
  cases i with
  | resolve | termXor | symStep | unroll | outmap | canon | checkLen | emitBare | emitFull | generate | eval => rfl
  | cycReset en data => exact decode_cycWord (by simpa [Instr.wellFormed] using h) true en {}
  | cycUpdate data => exact decode_cycWord (by simpa [Instr.wellFormed] using h) false true {}
  | cycHold data => exact decode_cycWord (by simpa [Instr.wellFormed] using h) false false {}
  | combEval x y =>
    simp only [Instr.wellFormed, Bool.and_eq_true, decide_eq_true_eq] at h
    exact decode_combWord h.1 h.2 {}

/-- Settles O8: the words are written out, so the decoder evaluates on them. -/
theorem writtenOutWordsDecode : Obligations.WrittenOutWordsDecode := by
  unfold Obligations.WrittenOutWordsDecode
  decide

/-- The format of a word says which agent its instruction is for (R70). -/
theorem isCircuitOp_of_decode {wd : Widths} {x : OpWord} {i : Instr} (h : decode wd x = .ok i) :
    isCircuitOp i = decide (x.fmt ≠ .gen) := by
  obtain ⟨fmt, word, args⟩ := x
  unfold decode at h
  split at h
  · cases fmt with
    | gen =>
      by_cases hop : word < 0xB
      · obtain ⟨j, hj, hcirc⟩ := decodeGen_operation hop args
        obtain rfl : j = i := Decoded.ok.inj (hj.symm.trans h)
        exact hcirc
      · exact nomatch (decodeGen_reserved (Nat.le_of_not_lt hop) args).symm.trans h
    | cyc =>
      obtain rfl := Decoded.ok.inj h
      rw [decodeCyc_eq_cycInstr]
      unfold cycInstr
      split
      · rfl
      · split <;> rfl
    | comb =>
      obtain rfl := Decoded.ok.inj h
      rfl
  · exact nomatch h

/-- Settles O48: such a word is a reset, whose meaning reads no operand, or a hold, whose meaning reads no data. -/
theorem dataMattersOnlyAtUpdates : Obligations.DataMattersOnlyAtUpdates := by
  unfold Obligations.DataMattersOnlyAtUpdates
  intro wd s d d' rst en i i' hd hd' hne hi hi'
  obtain rfl : cycInstr rst en d = i := Decoded.ok.inj ((decode_cycWord hd rst en {}).symm.trans hi)
  obtain rfl : cycInstr rst en d' = i' := Decoded.ok.inj ((decode_cycWord hd' rst en {}).symm.trans hi')
  match rst, en with
  | true, _ => rfl
  | false, true => exact absurd ⟨rfl, rfl⟩ hne
  | false, false => rfl

/-! ## Fetching -/

/-- Settles O1: each field is written out in the reset state. -/
theorem resetHoldsInitialValues : Obligations.ResetHoldsInitialValues :=
  ⟨rfl, rfl, rfl, fun _ => rfl, rfl, rfl, rfl, rfl, rfl⟩

section
variable {s : State} {x : OpWord} {l : List HostInput} {wd : Widths} {i : Instr}

theorem step_idle (hp : s.pending = []) : step s = .next s := by
  simp [step, fetch, hp]

theorem step_readState (hp : s.pending = .readState :: l) : step s = readStateReg (s.setPending l) := by
  simp [step, fetch, hp]

theorem step_readCrc (hp : s.pending = .readCrc :: l) : step s = readCrcOut (s.setPending l) := by
  simp [step, fetch, hp]

theorem fetch_op (hp : s.pending = .op x :: l) : fetch s = fetchOp x (s.setPending l) := by
  simp [fetch, hp]

@[simp] theorem State.setPending_widthsFor (s : State) (l : List HostInput) (f : Format) :
    (s.setPending l).widthsFor f = s.widthsFor f := rfl

@[simp] theorem State.setPending_neverReached (s : State) (l : List HostInput) (f : Format) (i : Instr) :
    (s.setPending l).neverReached f i = s.neverReached f i := rfl

theorem step_noAgent (hp : s.pending = .op x :: l) (hw : s.widthsFor x.fmt = none) :
    step s = .refused (noAgent x.fmt) := by
  simp [step, fetch_op hp, fetchOp, hw]

theorem step_unreached (hp : s.pending = .op x :: l) (hw : s.widthsFor x.fmt = some wd)
    (hd : decode wd x = .ok i) (hr : s.neverReached x.fmt i = true) : step s = .next (s.setPending l) := by
  simp [step, fetch_op hp, fetchOp, hw, hd, hr]

theorem step_illFormed (hp : s.pending = .op x :: l) (hw : s.widthsFor x.fmt = some wd)
    (hd : decode wd x = .ok i) (hr : s.neverReached x.fmt i = false) (hi : i.wellFormed wd = false) :
    step s = .refused .illFormedOperand := by
  simp [step, fetch_op hp, fetchOp, hw, hd, hr, hi]

theorem step_run (hp : s.pending = .op x :: l) (hw : s.widthsFor x.fmt = some wd)
    (hd : decode wd x = .ok i) (hr : s.neverReached x.fmt i = false) (hi : i.wellFormed wd = true) :
    step s = exec i (s.setPending l) := by
  simp [step, fetch_op hp, fetchOp, hw, hd, hr, hi]

end

theorem decode_tooWide {wd : Widths} {x : OpWord} (h : 2 ^ formatBits wd x.fmt ≤ x.word) :
    decode wd x = .bad (.wordTooWide x.fmt x.word) :=
  if_neg (Nat.not_lt.2 h)

/-- Settles O2: the fetch answers `run`. -/
theorem stepRunsDecodedInstruction : Obligations.StepRunsDecodedInstruction :=
  fun _ _ _ _ _ => step_run

/-- Settles O3: each clause is one answer of the fetch. -/
theorem stepWithoutInstruction : Obligations.StepWithoutInstruction := by
  unfold Obligations.StepWithoutInstruction
  refine ⟨fun s => step_idle, fun s l => ⟨step_readState, step_readCrc⟩, fun s x l hp => ?_,
    fun wd x => decode_tooWide⟩
  exact ⟨step_noAgent hp, fun wd hw => ⟨fun e => step_undecodable hp hw,
    fun i hd => ⟨step_unreached hp hw hd, step_illFormed hp hw hd⟩⟩⟩

end Sys2Proof.Machine
end

section
/-! R100 to R104 and R200 to R204: the resolver. Each field's check accepts exactly the field's legal range; the checks
are made in the order of the field numbers, and the first that rejects decides. -/

namespace Sys2Proof.Machine

/-! ## The checks, field by field -/

theorem asPositive_isSome_iff {v : RawVal} : (asPositive v).isSome ↔ ∃ i : Int, v = .int i ∧ 1 ≤ i := by
  cases h : asPositive v with
  | none => simpa using asPositive_none h
  | some n =>
    obtain ⟨i, hv, hi, -⟩ := asPositive_some h
    exact iff_of_true rfl ⟨i, hv, hi⟩

theorem asWord_isSome_iff {v : RawVal} {w : Nat} :
    (asWord w v).isSome ↔ ∃ i : Int, v = .int i ∧ 0 ≤ i ∧ i < 2 ^ w := by
  cases h : asWord w v with
  | none => simpa using asWord_none h
  | some n =>
    obtain ⟨i, hv, h0, hi, -⟩ := asWord_some h
    exact iff_of_true rfl ⟨i, hv, h0, hi⟩

theorem asBool_isSome_iff {v : RawVal} :
    (asBool v).isSome ↔ (∃ b, v = .bool b) ∨ v = .int 0 ∨ v = .int 1 := by
  cases h : asBool v with
  | none => exact iff_of_false nofun (asBool_none h)
  | some b => exact iff_of_true rfl (asBool_some h)

theorem asMode_isSome_iff {v : RawVal} : (asMode v).isSome ↔ v = .name "BARE" ∨ v = .name "FULL" := by
  cases h : asMode v with
  | none => exact iff_of_false nofun (asMode_none h)
  | some m => exact iff_of_true rfl (asMode_some h)

/-- The check of a field passes, where `w` is the width that field 0 gives. -/
def checkPasses (r : RawTuple) (w : Nat) : ConfigField → Bool
  | .w => (asPositive r.w).isSome
  | .poly => (asWord w r.poly).isSome
  | .n => (asPositive (r.n.getD defaultN)).isSome
  | .refin => (asBool r.refin).isSome
  | .refout => (asBool r.refout).isSome
  | .init => (asWord w r.init).isSome
  | .xorout => (asWord w r.xorout).isSome
  | .mode => (asMode r.mode).isSome

theorem fieldOk_w_iff {r : RawTuple} : FieldOk r .w ↔ (asPositive r.w).isSome :=
  asPositive_isSome_iff.symm

/-- A field that is bounded by the width, under the width that field 0 gives. -/
theorem wordFieldOk_iff {r : RawTuple} {w : Nat} (hw : asPositive r.w = some w) (v : RawVal) :
    (∃ i j : Int, r.w = .int i ∧ v = .int j ∧ 0 ≤ j ∧ j < 2 ^ i.toNat) ↔ (asWord w v).isSome := by
  obtain ⟨i, hi, -, rfl⟩ := asPositive_some hw
  simp [asWord_isSome_iff, hi]

/-- A field is in its legal range exactly when its check passes (R100). -/
theorem fieldOk_iff {r : RawTuple} {w : Nat} (hw : asPositive r.w = some w) (f : ConfigField) :
    FieldOk r f ↔ checkPasses r w f = true := by
  cases f with
  | w => exact fieldOk_w_iff
  | poly => exact wordFieldOk_iff hw r.poly
  | n =>
    cases hn : r.n with
    | none => simp [FieldOk, checkPasses, hn, defaultN, asPositive]
    | some v => simp [FieldOk, checkPasses, hn, asPositive_isSome_iff]
  | refin => exact asBool_isSome_iff.symm
  | refout => exact asBool_isSome_iff.symm
  | init => exact wordFieldOk_iff hw r.init
  | xorout => exact wordFieldOk_iff hw r.xorout
  | mode => exact asMode_isSome_iff.symm

/-! ## What resolving answers -/

/-- One check of RESOLVE: where it rejects, the field is named, and otherwise the next check follows (R204). -/
def checkField {α : Type} (o : Option α) (f : ConfigField) (k : α → Resolved) : Resolved :=
  o.elim (.bad f) k

theorem checkField_ok_iff {α : Type} {o : Option α} {f : ConfigField} {k : α → Resolved} {c : Config} :
    checkField o f k = .ok c ↔ ∃ a, o = some a ∧ k a = .ok c := by
  cases o <;> simp [checkField]

theorem checkField_bad_iff {α : Type} {o : Option α} {f g : ConfigField} {k : α → Resolved} :
    checkField o f k = .bad g ↔ (o = none ∧ f = g) ∨ ∃ a, o = some a ∧ k a = .bad g := by
  cases o <;> simp [checkField]

/-- RESOLVE is its checks in the order of the field numbers (R100, R204). -/
theorem resolveTuple_eq_checks (r : RawTuple) :
    resolveTuple r =
      checkField (asPositive r.w) .w fun w =>
      checkField (asWord w r.poly) .poly fun poly =>
      checkField (asPositive (r.n.getD defaultN)) .n fun n =>
      checkField (asBool r.refin) .refin fun refin =>
      checkField (asBool r.refout) .refout fun refout =>
      checkField (asWord w r.init) .init fun init =>
      checkField (asWord w r.xorout) .xorout fun xorout =>
      checkField (asMode r.mode) .mode fun mode => .ok ⟨w, poly, n, refin, refout, init, xorout, mode⟩ := by
  unfold resolveTuple checkField
  repeat' split
  all_goals simp [*]

/-- Resolving returns a configuration exactly when the eight checks pass with its values. -/
theorem resolveTuple_ok_iff {r : RawTuple} {c : Config} :
    resolveTuple r = .ok c ↔
      asPositive r.w = some c.w ∧ asWord c.w r.poly = some c.poly ∧
      asPositive (r.n.getD defaultN) = some c.n ∧ asBool r.refin = some c.refin ∧
      asBool r.refout = some c.refout ∧ asWord c.w r.init = some c.init ∧
      asWord c.w r.xorout = some c.xorout ∧ asMode r.mode = some c.mode := by
  simp only [resolveTuple_eq_checks, checkField_ok_iff]
  constructor
  · rintro ⟨w, hw, poly, hpoly, n, hn, refin, hrefin, refout, hrefout, init, hinit, xorout, hxorout, mode, hmode,
      hc⟩
    obtain rfl := Resolved.ok.inj hc
    exact ⟨hw, hpoly, hn, hrefin, hrefout, hinit, hxorout, hmode⟩
  · rintro ⟨hw, hpoly, hn, hrefin, hrefout, hinit, hxorout, hmode⟩
    exact ⟨_, hw, _, hpoly, _, hn, _, hrefin, _, hrefout, _, hinit, _, hxorout, _, hmode, rfl⟩

theorem fieldOk_of_ok {r : RawTuple} {c : Config} (h : resolveTuple r = .ok c) (f : ConfigField) : FieldOk r f := by
  obtain ⟨hw, hpoly, hn, hrefin, hrefout, hinit, hxorout, hmode⟩ := resolveTuple_ok_iff.1 h
  rw [fieldOk_iff hw]
  cases f <;> simp only [checkPasses, Option.isSome_some, *]

/-- Where resolving names a field, its check is the first that fails. -/
theorem resolveTuple_bad {r : RawTuple} {f : ConfigField} (h : resolveTuple r = .bad f) :
    ¬ FieldOk r f ∧ ∀ g, fieldCode g < fieldCode f → FieldOk r g := by
  rw [resolveTuple_eq_checks, checkField_bad_iff] at h
  obtain ⟨hw, rfl⟩ | ⟨w, hw, h⟩ := h
  · exact ⟨by simp [fieldOk_w_iff, hw], fun g hg => absurd hg (Nat.not_lt_zero _)⟩
  · simp only [fieldOk_iff hw]
    simp only [checkField_bad_iff, reduceCtorEq, and_false, exists_false, or_false] at h
    obtain ⟨h, rfl⟩ | ⟨_, hpoly, ⟨h, rfl⟩ | ⟨_, hn, ⟨h, rfl⟩ | ⟨_, hrefin, ⟨h, rfl⟩ | ⟨_, hrefout, ⟨h, rfl⟩ |
      ⟨_, hinit, ⟨h, rfl⟩ | ⟨_, hxorout, h, rfl⟩⟩⟩⟩⟩⟩ := h
    all_goals
      refine ⟨by simp [checkPasses, h], fun g hg => ?_⟩
      cases g <;> simp_all [checkPasses, fieldCode]

theorem fieldCode_inj {f g : ConfigField} (h : fieldCode f = fieldCode g) : f = g := by
  cases f <;> cases g <;> simp_all [fieldCode]

/-! ## The configuration that resolving returns -/

theorem asPositive_eq_some_iff {v : RawVal} {n : Nat} : asPositive v = some n ↔ v = .int n ∧ 1 ≤ n := by
  constructor
  · intro h
    obtain ⟨i, rfl, hi, rfl⟩ := asPositive_some h
    exact ⟨by rw [Int.toNat_of_nonneg (by omega)], by omega⟩
  · rintro ⟨rfl, hn⟩
    simp [asPositive, Nat.one_le_iff_ne_zero.1 hn]

theorem asWord_eq_some_iff {v : RawVal} {w n : Nat} : asWord w v = some n ↔ v = .int n ∧ n < 2 ^ w := by
  constructor
  · intro h
    obtain ⟨i, rfl, h0, hi, rfl⟩ := asWord_some h
    refine ⟨by rw [Int.toNat_of_nonneg h0], ?_⟩
    rw [Int.toNat_lt h0]
    exact_mod_cast hi
  · rintro ⟨rfl, hn⟩
    simp [asWord, hn]

theorem asBool_eq_some_iff {v : RawVal} {b : Bool} :
    asBool v = some b ↔ v = .bool b ∨ v = .int (if b then 1 else 0) := by
  constructor
  · intro h
    obtain ⟨b', rfl⟩ | rfl | rfl := asBool_some h
    · exact .inl (congrArg RawVal.bool (Option.some.inj h))
    · obtain rfl : false = b := Option.some.inj h
      exact .inr rfl
    · obtain rfl : true = b := Option.some.inj h
      exact .inr rfl
  · rintro (rfl | rfl)
    · rfl
    · cases b <;> rfl

/-- The name a tuple gives a mode by (R22). -/
def modeName : Mode → String
  | .bare => "BARE"
  | .full => "FULL"

theorem asMode_eq_some_iff {v : RawVal} {m : Mode} : asMode v = some m ↔ v = .name (modeName m) := by
  constructor
  · intro h
    obtain rfl | rfl := asMode_some h
    · obtain rfl : .bare = m := Option.some.inj h
      rfl
    · obtain rfl : .full = m := Option.some.inj h
      rfl
  · rintro rfl
    cases m <;> rfl

theorem resolveTuple_valid {r : RawTuple} {c : Config} (h : resolveTuple r = .ok c) : c.Valid := by
  obtain ⟨hw, hpoly, hn, -, -, hinit, hxorout, -⟩ := resolveTuple_ok_iff.1 h
  exact ⟨(asPositive_eq_some_iff.1 hw).2, (asWord_eq_some_iff.1 hpoly).2, (asPositive_eq_some_iff.1 hn).2,
    (asWord_eq_some_iff.1 hinit).2, (asWord_eq_some_iff.1 hxorout).2⟩

/-- A tuple that spells a valid configuration, its `N` given or left to the default, resolves to it (R104). -/
theorem resolveTuple_of_valid {r : RawTuple} {c : Config} (hc : c.Valid)
    (hr : r = rawOf c ∨ (c.n = 8 ∧ r = { rawOf c with n := none })) : resolveTuple r = .ok c := by
  obtain ⟨hw, hpoly, hn, hinit, hxorout⟩ := hc
  have hn' : asPositive (r.n.getD defaultN) = some c.n := by
    obtain rfl | ⟨h8, rfl⟩ := hr
    · exact asPositive_eq_some_iff.2 ⟨rfl, hn⟩
    · exact asPositive_eq_some_iff.2 ⟨by rw [h8]; rfl, hn⟩
  have hfields : r.w = .int c.w ∧ r.poly = .int c.poly ∧ r.refin = .bool c.refin ∧ r.refout = .bool c.refout ∧
      r.init = .int c.init ∧ r.xorout = .int c.xorout ∧ r.mode = .name (modeName c.mode) := by
    have hmode : (rawOf c).mode = .name (modeName c.mode) := by cases h : c.mode <;> simp [rawOf, modeName, h]
    obtain rfl | ⟨-, rfl⟩ := hr
    · exact ⟨rfl, rfl, rfl, rfl, rfl, rfl, hmode⟩
    · exact ⟨rfl, rfl, rfl, rfl, rfl, rfl, hmode⟩
  obtain ⟨rw, rpoly, rrefin, rrefout, rinit, rxorout, rmode⟩ := hfields
  exact resolveTuple_ok_iff.2 ⟨asPositive_eq_some_iff.2 ⟨rw, hw⟩, asWord_eq_some_iff.2 ⟨rpoly, hpoly⟩, hn',
    asBool_eq_some_iff.2 (.inl rrefin), asBool_eq_some_iff.2 (.inl rrefout), asWord_eq_some_iff.2 ⟨rinit, hinit⟩,
    asWord_eq_some_iff.2 ⟨rxorout, hxorout⟩, asMode_eq_some_iff.2 rmode⟩

/-! ## The statements -/

/-- Settles O9: all checks pass exactly where every field is legal, and each check returns its field's value. -/
theorem resolveSucceedsExactlyInRange : Obligations.ResolveSucceedsExactlyInRange := by
  unfold Obligations.ResolveSucceedsExactlyInRange
  intro r
  refine ⟨⟨fun ⟨c, hc⟩ => fieldOk_of_ok hc, fun h => ?_⟩, fun c hc => ?_⟩
  · cases hr : resolveTuple r with
    | ok c => exact ⟨c, rfl⟩
    | bad f => exact absurd (h f) (resolveTuple_bad hr).1
  · obtain ⟨hw, hpoly, hn, hrefin, hrefout, hinit, hxorout, hmode⟩ := resolveTuple_ok_iff.1 hc
    have hn' : r.n = some (.int c.n) ∨ (r.n = none ∧ c.n = 8) := by
      cases hrn : r.n with
      | none =>
        rw [hrn] at hn
        exact .inr ⟨rfl, (Option.some.inj hn).symm⟩
      | some v =>
        rw [hrn] at hn
        exact .inl (congrArg some (asPositive_eq_some_iff.1 hn).1)
    exact ⟨resolveTuple_valid hc, (asPositive_eq_some_iff.1 hw).1, (asWord_eq_some_iff.1 hpoly).1, hn',
      asBool_eq_some_iff.1 hrefin, asBool_eq_some_iff.1 hrefout, (asWord_eq_some_iff.1 hinit).1,
      (asWord_eq_some_iff.1 hxorout).1, asMode_eq_some_iff.1 hmode⟩

/-- Settles O10: the field that resolving names is illegal with every earlier one legal, and no two fields can both
be the first illegal one. -/
theorem resolveNamesFirstIllegalField : Obligations.ResolveNamesFirstIllegalField := by
  unfold Obligations.ResolveNamesFirstIllegalField
  intro r f
  refine ⟨resolveTuple_bad, fun ⟨hf, hbefore⟩ => ?_⟩
  cases hr : resolveTuple r with
  | ok c => exact absurd (fieldOk_of_ok hr f) hf
  | bad g =>
    obtain ⟨hg, hgbefore⟩ := resolveTuple_bad hr
    obtain hlt | heq | hgt := Nat.lt_trichotomy (fieldCode g) (fieldCode f)
    · exact absurd (hbefore g hlt) hg
    · rw [fieldCode_inj heq]
    · exact absurd (hgbefore f hgt) hf

/-! ## RESOLVE as an operation -/

theorem exec_resolve {s : State} {src : Src RawTuple} {r : RawTuple} (h : readRaw s src = some r) :
    exec (.resolve src) s = .next (s.resolveRun r) := by
  simp [exec, execResolve, h]

theorem exec_generate {s : State} {src : Src RawTuple} {r : RawTuple} (h : readRaw s src = some r) :
    exec (.generate src) s = .next (s.generateRun r) := by
  simp [exec, execGenerate, h]

theorem readRaw_eq {s : State} {src : Src RawTuple} {r : RawTuple}
    (h : src = .lit r ∨ (src = .held ∧ s.raw = some r)) : readRaw s src = some r := by
  obtain rfl | ⟨rfl, hs⟩ := h
  · rfl
  · exact hs

theorem generateRun_bad {s : State} {r : RawTuple} {f : ConfigField} (h : resolveTuple r = .bad f) :
    s.generateRun r = s.resolveRun r := by
  simp [State.generateRun, h]

/-- Settles O11: the tuple resolves to its configuration, which is written at the start of the run. -/
theorem resolveConfiguresLegalTuple : Obligations.ResolveConfiguresLegalTuple := by
  unfold Obligations.ResolveConfiguresLegalTuple
  intro s c r src hc hr hsrc
  calc exec (.resolve src) s = .next (s.resolveRun r) := exec_resolve (readRaw_eq hsrc)
    _ = .next ((s.startRun r).configure c) := by rw [resolveRun_ok (resolveTuple_of_valid hc hr)]

/-- Settles O12: both operations raise at the start of the run; the table of R200 is that of the model. -/
theorem illegalTupleEndsTheRun : Obligations.IllegalTupleEndsTheRun := by
  unfold Obligations.IllegalTupleEndsTheRun
  refine ⟨fun s r f h => ⟨?_, ?_⟩, fun f => by cases f <;> rfl⟩
  · rw [exec_generate rfl, exec_resolve rfl, generateRun_bad h]
  · calc exec (.resolve (.lit r)) s = .next (s.resolveRun r) := exec_resolve rfl
      _ = .next ((s.startRun r).raise (.config (configError f))) := by rw [resolveRun_bad h]

/-! ## After RESOLVE has raised -/

/-- What is left of a failed run: its error, and neither a configuration nor a text (R202). -/
structure FailedWith (f : ConfigField) (t : State) : Prop where
  stage : t.stage = configStage f
  text : t.text = none
  cfg : t.cfg = none

theorem FailedWith.resolveRun (s : State) {r : RawTuple} {f : ConfigField} (h : resolveTuple r = .bad f) :
    FailedWith f (s.resolveRun r) := by
  rw [resolveRun_bad h]
  exact ⟨rfl, rfl, rfl⟩

theorem FailedWith.step {f : ConfigField} {t : State} (ht : FailedWith f t) {x : OpWord} {l : List HostInput}
    {i : Instr} (hp : t.pending = .op x :: l) (hx : x.fmt = .gen) (hd : decode ⟨0, 0⟩ x = .ok i)
    (hi : i.startsRun = false) : Machine.step t = .next (t.setPending l) := by
  have hw : t.widthsFor x.fmt = some ⟨0, 0⟩ := by simp [State.widthsFor, hx, ht.cfg]
  have hfailed : t.runFailed = true := runFailed_iff.2 ⟨_, ht.stage⟩
  exact step_unreached hp hw hd (by simp [State.neverReached, hx, hfailed, hi])

/-- The pending operations of a failed run that bring no tuple are all consumed without effect. -/
theorem FailedWith.run {f : ConfigField} (l : List OpWord)
    (hl : ∀ x ∈ l, x.fmt = .gen ∧ ∃ i, decode ⟨0, 0⟩ x = .ok i ∧ i.startsRun = false) :
    ∀ {t : State}, FailedWith f t → t.pending = l.map .op →
      Host.Core.run Sys2Proof.core l.length t = .next (t.setPending []) := by
  induction l with
  | nil =>
    intro t _ hp
    exact congrArg Host.Outcome.next (by rw [← show t.pending = [] from hp]; rfl)
  | cons x l ih =>
    intro t ht hp
    obtain ⟨⟨hx, i, hd, hi⟩, hl⟩ := List.forall_mem_cons.1 hl
    calc Host.Core.run Sys2Proof.core (l.length + 1) t
        = Host.Core.run Sys2Proof.core l.length (t.setPending (l.map .op)) := run_succ (ht.step hp hx hd hi) _
      _ = .next ((t.setPending (l.map .op)).setPending []) := ih hl ⟨ht.stage, ht.text, ht.cfg⟩ rfl

/-- Settles O14: one step runs RESOLVE, which fails, and every further step is one of the failed run. -/
theorem failedRunReachesNothingMore : Obligations.FailedRunReachesNothingMore := by
  unfold Obligations.FailedRunReachesNothingMore
  intro s r f l h hl hp
  obtain ⟨wd, hw⟩ := exists_widthsFor_gen s
  have hreached : s.neverReached .gen (.resolve (.lit r)) = false := by simp [State.neverReached, Instr.startsRun]
  have hstep : step s = .next ((s.setPending (l.map .op)).resolveRun r) :=
    (step_run hp hw rfl hreached rfl).trans (exec_resolve rfl)
  have hfailed := FailedWith.resolveRun (s.setPending (l.map .op)) h
  have hpending : ((s.setPending (l.map .op)).resolveRun r).pending = l.map .op := by simp [resolveRun_bad h]
  refine ⟨((s.setPending (l.map .op)).resolveRun r).setPending [], ?_, hfailed.stage, hfailed.text, hfailed.cfg, rfl⟩
  rw [run_succ hstep, hfailed.run l hl hpending]

end Sys2Proof.Machine
end

section
/-! R155: the run of GENERATE after RESOLVE has succeeded. Its vectors have `W` elements, so the length check passes,
and the canonical vectors state the unrolled equations, so the circuit of the text is the configuration's. -/

namespace Sys2Proof.Machine

theorem lt_of_mem_unroll {c : Config} : ∀ t ∈ unroll c, t < 2 ^ (c.w + c.n) :=
  (vectorLegal_iff.1 (vectorLegal_unroll c)).2

theorem lt_of_mem_outmap {c : Config} {sv : StateVector} (h : vectorLegal c.widths sv = true) :
    ∀ o ∈ outmap c sv, o.term < 2 ^ (c.w + c.n) :=
  (outLegal_iff.1 (outLegal_outmap h)).2

/-- The text of a configuration's unrolled equations (R155). -/
def textOf (c : Config) : Text :=
  emitText c (canonVec c.widths (unroll c)) (canonOutVec c.widths (outmap c (unroll c)))

/-- The circuit of either mode's text states the equations the vectors hold (R157). -/
theorem emitCircuit_canonVec {c : Config} :
    emitCircuit c (canonVec c.widths (unroll c)) (canonOutVec c.widths (outmap c (unroll c))) = circuitOf c := by
  have hsv : packVec c.widths (canonVec c.widths (unroll c)) = unroll c := packVec_canonVec lt_of_mem_unroll
  have hov : packOutVec c.widths (canonOutVec c.widths (outmap c (unroll c))) = outmap c (unroll c) :=
    packOutVec_canonOutVec (lt_of_mem_outmap (vectorLegal_unroll c))
  unfold emitCircuit circuitOf
  cases c.mode with
  | bare => simp only [bareCircuit, hsv, hov]
  | full => simp only [fullCircuit, registerOut, hsv]

theorem lengthCheck_unroll (c : Config) :
    lengthCheck c.w (canonVec c.widths (unroll c)) (canonOutVec c.widths (outmap c (unroll c))) = none :=
  lengthCheck_none.2 ⟨by simp, by simp⟩

/-- The generator after UNROLL and OUTMAP. -/
def State.unrolled (s : State) (c : Config) : State := (s.setVector (unroll c) c.n).setOut (outmap c (unroll c))

/-- The run after RESOLVE: the two vectors, then the text and its circuit. -/
theorem pipeline_eq (s : State) (c : Config) :
    s.pipeline c = (s.unrolled c).finish (textOf c) (circuitOf c) := by
  unfold State.pipeline State.unrolled
  simp only [lengthCheck_unroll, emitCircuit_canonVec, textOf]

theorem generateRun_ok {s : State} {r : RawTuple} {c : Config} (h : resolveTuple r = .ok c) :
    s.generateRun r = ((s.startRun r).configure c).pipeline c := by
  simp [State.generateRun, h, resolveRun_ok h]

theorem circuitOk_circuitOf {c : Config} (h : c.Valid) : CircuitOk (circuitOf c) := by
  refine ⟨h, vectorLegal_unroll c, ?_⟩
  unfold circuitOf
  cases c.mode with
  | bare => exact outLegal_outmap (vectorLegal_unroll c)
  | full => exact outLegal_outmap (vectorLegal_idVector c.widths)

end Sys2Proof.Machine
end

section
/-! The invariant: each shared update of the state keeps it, and so does every instruction that a step can run. -/

namespace Sys2Proof.Machine

variable {s : State} {c : Config}

/-! ## The shared updates -/

theorem Inv.setPending (h : Inv s) (l : List HostInput) : Inv (s.setPending l) :=
  ⟨h.cfgValid, h.atStart, h.atConfigured, h.atDone, h.atFailed, h.noConfig, h.vector, h.outs, h.position,
    h.circuitOk, h.register⟩

theorem Inv.answer (h : Inv s) (r : Result) : Inv (s.answer r) :=
  ⟨h.cfgValid, h.atStart, h.atConfigured, h.atDone, h.atFailed, h.noConfig, h.vector, h.outs, h.position,
    h.circuitOk, h.register⟩

theorem Inv.observe (h : Inv s) (o : Observation) : Inv (s.observe o) :=
  ⟨h.cfgValid, h.atStart, h.atConfigured, h.atDone, h.atFailed, h.noConfig, h.vector, h.outs, h.position,
    h.circuitOk, h.register⟩

theorem Inv.setReg (h : Inv s) {v : Option Nat}
    (hv : ∀ x, v = some x → ∃ ci, s.fullModule = some ci ∧ x < 2 ^ ci.cfg.w) : Inv (s.setReg v) :=
  ⟨h.cfgValid, h.atStart, h.atConfigured, h.atDone, h.atFailed, h.noConfig, h.vector, h.outs, h.position,
    h.circuitOk, hv⟩

theorem Inv.setVector (h : Inv s) (hc : s.cfg = some c) {v : StateVector} (hv : vectorLegal c.widths v = true)
    {p : Nat} (hp : p ≤ c.n) : Inv (s.setVector v p) where
  cfgValid := h.cfgValid
  atStart := h.atStart
  atConfigured := h.atConfigured
  atDone := h.atDone
  atFailed := h.atFailed
  noConfig hnone := nomatch hc.symm.trans hnone
  vector c' v' hc' hv' := by
    obtain rfl := Option.some.inj (hc.symm.trans hc')
    obtain rfl := Option.some.inj hv'
    exact hv
  outs := h.outs
  position c' hc' := by
    obtain rfl := Option.some.inj (hc.symm.trans hc')
    exact hp
  circuitOk := h.circuitOk
  register := h.register

theorem Inv.setOut (h : Inv s) (hc : s.cfg = some c) {v : OutVector} (hv : outLegal c.widths v = true) :
    Inv (s.setOut v) where
  cfgValid := h.cfgValid
  atStart := h.atStart
  atConfigured := h.atConfigured
  atDone := h.atDone
  atFailed := h.atFailed
  noConfig hnone := nomatch hc.symm.trans hnone
  vector := h.vector
  outs c' v' hc' hv' := by
    obtain rfl := Option.some.inj (hc.symm.trans hc')
    obtain rfl := Option.some.inj hv'
    exact hv
  position := h.position
  circuitOk := h.circuitOk
  register := h.register

theorem Inv.raise (h : Inv s) (e : GenError) : Inv (s.raise e) where
  cfgValid := h.cfgValid
  atStart := nofun
  atConfigured := nofun
  atDone := nofun
  atFailed _ _ := rfl
  noConfig := h.noConfig
  vector := h.vector
  outs := h.outs
  position := h.position
  circuitOk := h.circuitOk
  register := h.register

theorem Inv.finish (h : Inv s) (hc : s.cfg = some c) (t : Text) {ci : Circuit} (hci : CircuitOk ci) :
    Inv (s.finish t ci) where
  cfgValid := h.cfgValid
  atStart := nofun
  atConfigured := nofun
  atDone _ := ⟨by simp [hc], nofun⟩
  atFailed := nofun
  noConfig := h.noConfig
  vector := h.vector
  outs := h.outs
  position := h.position
  circuitOk ci' hci' := Option.some.inj hci' ▸ hci
  register := nofun

theorem Inv.startRun (h : Inv s) (r : RawTuple) : Inv (s.startRun r) where
  cfgValid := nofun
  atStart _ := ⟨rfl, rfl⟩
  atConfigured := nofun
  atDone := nofun
  atFailed := nofun
  noConfig _ := ⟨rfl, rfl, rfl⟩
  vector := nofun
  outs := nofun
  position := nofun
  circuitOk := h.circuitOk
  register := h.register

/-- RESOLVE writes the configuration at the start of a run, where nothing is held yet. -/
theorem Inv.configure_startRun (h : Inv s) (r : RawTuple) (hc : c.Valid) : Inv ((s.startRun r).configure c) where
  cfgValid _ hc' := Option.some.inj hc' ▸ hc
  atStart := nofun
  atConfigured _ := ⟨nofun, rfl⟩
  atDone := nofun
  atFailed := nofun
  noConfig := nofun
  vector := nofun
  outs := nofun
  position _ _ := Nat.zero_le _
  circuitOk := h.circuitOk
  register := h.register

theorem Inv.resolveRun (h : Inv s) (r : RawTuple) : Inv (s.resolveRun r) := by
  cases hr : resolveTuple r with
  | ok c =>
    rw [resolveRun_ok hr]
    exact h.configure_startRun r (resolveTuple_valid hr)
  | bad f =>
    rw [resolveRun_bad hr]
    exact (h.startRun r).raise _

theorem Inv.pipeline (h : Inv s) (hc : s.cfg = some c) : Inv (s.pipeline c) := by
  rw [pipeline_eq]
  have hvec : Inv (s.setVector (unroll c) c.n) := h.setVector hc (vectorLegal_unroll c) (Nat.le_refl _)
  exact (hvec.setOut hc (outLegal_outmap (vectorLegal_unroll c))).finish hc _ (circuitOk_circuitOf (h.cfgValid c hc))

theorem Inv.generateRun (h : Inv s) (r : RawTuple) : Inv (s.generateRun r) := by
  cases hr : resolveTuple r with
  | ok c =>
    rw [generateRun_ok hr]
    exact (h.configure_startRun r (resolveTuple_valid hr)).pipeline rfl
  | bad f =>
    rw [generateRun_bad hr]
    exact h.resolveRun r

/-! ## Legal operands read as legal values -/

theorem Inv.vectorLegal_svNow (h : Inv s) (hc : s.cfg = some c) : vectorLegal c.widths (s.svNow c) = true := by
  unfold State.svNow
  cases hsv : s.sv with
  | none => exact vectorLegal_idVector c.widths
  | some v => exact h.vector c v hc hsv

theorem Inv.vectorLegal_readVector (h : Inv s) (hc : s.cfg = some c) {src : Src StateVector}
    (hsrc : srcLegal (vectorLegal c.widths) src = true) : vectorLegal c.widths (readVector c s src) = true := by
  cases src with
  | held => exact h.vectorLegal_svNow hc
  | lit v => exact hsrc

theorem readIndex_lt {src : Src Nat} (hsrc : srcLegal (fun j => decide (j < c.n)) src = true) {k : Nat}
    (hk : readIndex c s src = some k) : k < c.n := by
  cases src with
  | held => exact mem_procOrder.1 (List.mem_of_getElem? hk)
  | lit j =>
    obtain rfl := Option.some.inj hk
    simpa [srcLegal] using hsrc

theorem posAfter_le {p : Nat} (hp : p ≤ c.n) : posAfter c p ≤ c.n := by
  unfold posAfter
  split <;> omega

/-- The equations that the Emitter packs from a canonical vector, held or given. -/
theorem Inv.vectorLegal_packVec_read (h : Inv s) (hc : s.cfg = some c) {src : Src (List SymbolList)}
    (hsrc : srcLegal (canonVector c.widths) src = true) :
    vectorLegal c.widths (packVec c.widths (readCanonVec c s src)) = true := by
  cases src with
  | held =>
    have hlegal := h.vectorLegal_svNow hc
    rw [readCanonVec, packVec_canonVec (vectorLegal_iff.1 hlegal).2]
    exact hlegal
  | lit v => exact vectorLegal_packVec hsrc

theorem Inv.outLegal_packOutVec_read (h : Inv s) (hc : s.cfg = some c) {src : Src (List OutList)}
    (hsrc : srcLegal (canonOutVector c.widths) src = true) {cov : List OutList}
    (hcov : readCanonOut c s src = some cov) : outLegal c.widths (packOutVec c.widths cov) = true := by
  cases src with
  | held =>
    obtain ⟨ov, hov, rfl⟩ := Option.map_eq_some_iff.1 hcov
    have hlegal := h.outs c ov hc hov
    rw [packOutVec_canonOutVec (outLegal_iff.1 hlegal).2]
    exact hlegal
  | lit v =>
    obtain rfl := Option.some.inj hcov
    exact outLegal_packOutVec hsrc

/-! ## Every instruction, and every step -/

/-- An instruction whose operands are legal under the generator's configuration keeps the invariant. A circuit
operation keeps it whatever its operands are. -/
theorem Inv.exec (h : Inv s) {i : Instr} {t : State} (ht : exec i s = .next t)
    (hi : isCircuitOp i = false → ∀ c, s.cfg = some c → i.wellFormed c.widths = true) : Inv t := by
  cases i with
  | resolve raw =>
    obtain ⟨r, -, rfl⟩ := execResolve_next ht
    exact h.resolveRun r
  | termXor a b =>
    obtain ⟨c, -, rfl⟩ := execTermXor_next ht
    exact h.answer _
  | symStep sv j =>
    obtain ⟨c, k, hc, hk, rfl⟩ := execSymStep_next ht
    obtain ⟨hsv, hj⟩ := Bool.and_eq_true_iff.1 (hi rfl c hc)
    exact h.setVector hc (vectorLegal_symStep (h.vectorLegal_readVector hc hsv) (readIndex_lt hj hk))
      (posAfter_le (h.position c hc))
  | unroll =>
    obtain ⟨c, hc, rfl⟩ := execUnroll_next ht
    exact h.setVector hc (vectorLegal_unroll c) (Nat.le_refl _)
  | outmap sv =>
    obtain ⟨c, hc, rfl⟩ := execOutmap_next ht
    exact h.setOut hc (outLegal_outmap (h.vectorLegal_readVector hc (hi rfl c hc)))
  | canon x =>
    obtain ⟨c, r, -, -, rfl⟩ := execCanon_next ht
    exact h.answer r
  | checkLen sv ov =>
    obtain ⟨c, cov, -, -, ⟨-, rfl⟩ | ⟨e, -, -, rfl⟩⟩ := execCheckLen_next ht
    · exact h.answer _
    · exact h.raise _
  | emitBare sv ov =>
    obtain ⟨c, cov, hc, -, hcov, -, rfl⟩ := execEmitBare_next ht
    obtain ⟨hsv, hov⟩ := Bool.and_eq_true_iff.1 (hi rfl c hc)
    exact h.finish hc _ ⟨h.cfgValid c hc, h.vectorLegal_packVec_read hc hsv, h.outLegal_packOutVec_read hc hov hcov⟩
  | emitFull sv =>
    obtain ⟨c, hc, -, -, rfl⟩ := execEmitFull_next ht
    exact h.finish hc _ ⟨h.cfgValid c hc, h.vectorLegal_packVec_read hc (hi rfl c hc),
      outLegal_outmap (vectorLegal_idVector c.widths)⟩
  | generate raw =>
    obtain ⟨r, -, rfl⟩ := execGenerate_next ht
    exact h.generateRun r
  | eval x v d =>
    obtain ⟨c, o, -, -, rfl⟩ := execEval_next ht
    exact h.answer _
  | cycReset en d =>
    obtain ⟨ci, hci, rfl⟩ := execCycReset_next (en := en) (d := d) ht
    obtain ⟨⟨-, -, -, hinit, -⟩, -, -⟩ := h.circuitOk ci (fullModule_iff.1 hci).1
    exact h.setReg fun x hx => ⟨ci, hci, Option.some.inj hx ▸ hinit⟩
  | cycUpdate d =>
    obtain ⟨ci, hci, rfl⟩ := execCycUpdate_next ht
    refine h.setReg fun x hx => ⟨ci, hci, ?_⟩
    obtain ⟨v, -, rfl⟩ := Option.map_eq_some_iff.1 hx
    exact vectorValue_lt _ _ _ _
  | cycHold d =>
    obtain ⟨ci, -, rfl⟩ := execCycHold_next (d := d) ht
    exact h
  | combEval x y =>
    obtain ⟨ci, -, rfl⟩ := execCombEval_next ht
    exact h.observe _

/-- A read answers, where it answers a next state, the state with an observation (R180). -/
theorem readStateReg_next {t : State} (h : readStateReg s = .next t) : ∃ o, t = s.observe o := by
  obtain ⟨ci, -, h⟩ := withFull_next h
  split at h
  · exact ⟨_, (Host.Outcome.next.inj h).symm⟩
  · exact nomatch h

theorem readCrcOut_next {t : State} (h : readCrcOut s = .next t) : ∃ o, t = s.observe o := by
  obtain ⟨ci, -, h⟩ := withFull_next h
  split at h
  · exact ⟨_, (Host.Outcome.next.inj h).symm⟩
  · exact nomatch h

/-- The operands of a fetched generator operation are checked under the held configuration (R70). -/
theorem wellFormed_of_fetched {x : OpWord} {wd : Widths} {i : Instr} (hw : s.widthsFor x.fmt = some wd)
    (hd : decode wd x = .ok i) (hwf : i.wellFormed wd = true) (hi : isCircuitOp i = false) (hc : s.cfg = some c) :
    i.wellFormed c.widths = true := by
  have hgen : x.fmt = .gen := by simpa [isCircuitOp_of_decode hd] using hi
  have hwd : c.widths = wd := by simpa [State.widthsFor, hgen, hc] using hw
  rwa [hwd]

/-- Settles O57: nothing is held at reset. -/
theorem invariantHoldsAtReset : Obligations.InvariantHoldsAtReset where
  cfgValid := nofun
  atStart _ := ⟨rfl, rfl⟩
  atConfigured := nofun
  atDone := nofun
  atFailed := nofun
  noConfig _ := ⟨rfl, rfl, rfl⟩
  vector := nofun
  outs := nofun
  position := nofun
  circuitOk := nofun
  register := nofun

/-- Settles O58: a step consumes an input, observes, or runs a fetched instruction; each keeps the invariant. -/
theorem stepKeepsInvariant : Obligations.StepKeepsInvariant := by
  unfold Obligations.StepKeepsInvariant
  intro s t h ht
  obtain ⟨-, rfl⟩ | ⟨l, -, hread⟩ | ⟨l, -, hread⟩ | ⟨x, l, -, ⟨rfl, -⟩ | ⟨wd, i, hw, hd, hwf, hexec⟩⟩ :=
      step_cases ht
  · exact h
  · obtain ⟨o, rfl⟩ := readStateReg_next hread
    exact (h.setPending l).observe o
  · obtain ⟨o, rfl⟩ := readCrcOut_next hread
    exact (h.setPending l).observe o
  · exact h.setPending l
  · exact (h.setPending l).exec hexec fun hi c hc => wellFormed_of_fetched hw hd hwf hi hc

end Sys2Proof.Machine
end

section
/-! The frame of every instruction (R21, R28, R31, R203). An instruction that answers a next state has written through
one of the shared updates (`Effect`), and each statement below is read off that update. -/

namespace Sys2Proof.Machine

variable {s t : State}

/-! ## What a whole run leaves alone -/

@[simp] theorem State.resolveRun_pending (s : State) (r : RawTuple) : (s.resolveRun r).pending = s.pending := by
  cases h : resolveTuple r with
  | ok c => simp [resolveRun_ok h]
  | bad f => simp [resolveRun_bad h]

@[simp] theorem State.resolveRun_observed (s : State) (r : RawTuple) : (s.resolveRun r).observed = s.observed := by
  cases h : resolveTuple r with
  | ok c => simp [resolveRun_ok h]
  | bad f => simp [resolveRun_bad h]

@[simp] theorem State.generateRun_pending (s : State) (r : RawTuple) : (s.generateRun r).pending = s.pending := by
  cases h : resolveTuple r with
  | ok c => simp [generateRun_ok h, pipeline_eq, State.unrolled]
  | bad f => simp [generateRun_bad h]

@[simp] theorem State.generateRun_observed (s : State) (r : RawTuple) : (s.generateRun r).observed = s.observed := by
  cases h : resolveTuple r with
  | ok c => simp [generateRun_ok h, pipeline_eq, State.unrolled]
  | bad f => simp [generateRun_bad h]

/-- A run of GENERATE that leaves another circuit has emitted it, and its register holds no value (R32). -/
theorem State.generateRun_newCircuit (s : State) (r : RawTuple) :
    (s.generateRun r).circuit = s.circuit ∨ (s.generateRun r).stateReg = none := by
  cases h : resolveTuple r with
  | ok c => exact .inr (by simp [generateRun_ok h, pipeline_eq, State.unrolled])
  | bad f => exact .inl (by simp [generateRun_bad h])

/-! ## The effect of an instruction -/

/-- A generator operation that begins no run and ends none with a text. -/
def isInner (i : Instr) : Bool := !isCircuitOp i && !beginsWithResolve i && !emits i

/-- What an instruction has done to the state `s`. -/
inductive Effect (s : State) : Instr → State → Prop where
  | resolve {src : Src RawTuple} {r : RawTuple} (hr : readRaw s src = some r) :
      Effect s (.resolve src) (s.resolveRun r)
  | generate {src : Src RawTuple} {r : RawTuple} (hr : readRaw s src = some r) :
      Effect s (.generate src) (s.generateRun r)
  | answer {i : Instr} (hi : isInner i = true) (x : Result) : Effect s i (s.answer x)
  | setVector {i : Instr} (hi : isInner i = true) (v : StateVector) (p : Nat) : Effect s i (s.setVector v p)
  | setOut {i : Instr} (hi : isInner i = true) (v : OutVector) : Effect s i (s.setOut v)
  | raise {i : Instr} {c : Config} (hi : isInner i = true) (hc : s.cfg = some c)
      (hs : s.stage = .start ∨ s.stage = .configured) (e : LengthError) : Effect s i (s.raise (.internal e))
  | finish {i : Instr} {c : Config} (hemit : emits i = true) (hcirc : isCircuitOp i = false) (hc : s.cfg = some c)
      (hs : s.runFailed = false) (x : Text) (ci : Circuit) : Effect s i (s.finish x ci)
  | setReg {i : Instr} (hi : isCircuitOp i = true) (hb : beginsWithResolve i = false) (v : Option Nat) :
      Effect s i (s.setReg v)
  | observe {i : Instr} (hi : isCircuitOp i = true) (hb : beginsWithResolve i = false) (o : Observation) :
      Effect s i (s.observe o)

theorem effect_of_exec {i : Instr} (h : exec i s = .next t) : Effect s i t := by
  cases i with
  | resolve raw =>
    obtain ⟨r, hr, rfl⟩ := execResolve_next h
    exact .resolve hr
  | termXor a b =>
    obtain ⟨c, -, rfl⟩ := execTermXor_next h
    exact .answer rfl _
  | symStep sv j =>
    obtain ⟨c, k, -, -, rfl⟩ := execSymStep_next h
    exact .setVector rfl _ _
  | unroll =>
    obtain ⟨c, -, rfl⟩ := execUnroll_next h
    exact .setVector rfl _ _
  | outmap sv =>
    obtain ⟨c, -, rfl⟩ := execOutmap_next h
    exact .setOut rfl _
  | canon x =>
    obtain ⟨c, r, -, -, rfl⟩ := execCanon_next h
    exact .answer rfl r
  | checkLen sv ov =>
    obtain ⟨c, cov, hc, -, ⟨-, rfl⟩ | ⟨e, -, hs, rfl⟩⟩ := execCheckLen_next h
    · exact .answer rfl _
    · exact .raise rfl hc hs e
  | emitBare sv ov =>
    obtain ⟨c, cov, hc, -, -, hs, rfl⟩ := execEmitBare_next h
    exact .finish rfl rfl hc hs _ _
  | emitFull sv =>
    obtain ⟨c, hc, -, hs, rfl⟩ := execEmitFull_next h
    exact .finish rfl rfl hc hs _ _
  | generate raw =>
    obtain ⟨r, hr, rfl⟩ := execGenerate_next h
    exact .generate hr
  | eval x v d =>
    obtain ⟨c, o, -, -, rfl⟩ := execEval_next h
    exact .answer rfl _
  | cycReset en d =>
    obtain ⟨ci, -, rfl⟩ := execCycReset_next (en := en) (d := d) h
    exact .setReg rfl rfl _
  | cycUpdate d =>
    obtain ⟨ci, -, rfl⟩ := execCycUpdate_next h
    exact .setReg rfl rfl _
  | cycHold d =>
    obtain ⟨ci, -, rfl⟩ := execCycHold_next (d := d) h
    exact .setReg rfl rfl t.stateReg
  | combEval x y =>
    obtain ⟨ci, -, rfl⟩ := execCombEval_next h
    exact .observe rfl rfl _

/-! ## The statements -/

/-- Settles O53: each shared update writes the registers of one agent only, and none writes the pending inputs. -/
theorem agentsAreIndependent : Obligations.AgentsAreIndependent := by
  unfold Obligations.AgentsAreIndependent
  intro i s t h
  cases effect_of_exec h with
  | resolve => simp [isCircuitOp, beginsWithResolve]
  | generate => simp [isCircuitOp, beginsWithResolve, emits]
  | answer hi | setVector hi | setOut hi | raise hi =>
    have hcirc : isCircuitOp i = false := by simp_all [isInner]
    simp [hcirc]
  | finish hemit hcirc => simp [hemit, hcirc]
  | setReg hi | observe hi => simp [hi]

/-- Settles O55: the three ways an instruction can leave another register. -/
theorem onlyResetAndUpdateWriteRegister : Obligations.OnlyResetAndUpdateWriteRegister := by
  unfold Obligations.OnlyResetAndUpdateWriteRegister
  intro i s t h hne
  obtain hsame | hnew | ⟨ci, -, ⟨e, d, hi, -⟩ | ⟨d, hi, -⟩⟩ := stateReg_of_exec h
  · exact absurd hsame hne
  · exact .inr (.inr hnew)
  · exact .inl ⟨e, d, hi⟩
  · exact .inr (.inl ⟨d, hi⟩)

/-- Within a run the stage leaves only `CONFIGURED` (R28): before it there is no configuration to run under. -/
theorem stageMove_of_exec {i : Instr} (hinv : Inv s) (h : exec i s = .next t) (hi : beginsWithResolve i = false) :
    StageMove s.stage t.stage := by
  have hstart {c : Config} (hc : s.cfg = some c) : s.stage ≠ .start := by
    intro hs
    exact nomatch hc.symm.trans (hinv.atStart hs).1
  cases effect_of_exec h with
  | resolve | generate => exact nomatch hi
  | answer | setVector | setOut | setReg | observe => exact .inl rfl
  | raise _ hc hs e => exact .inr ⟨hs.resolve_left (hstart hc), .inr ⟨e, rfl⟩⟩
  | finish _ _ hc hs =>
    cases hst : s.stage with
    | start => exact absurd hst (hstart hc)
    | configured => exact .inr ⟨rfl, .inl rfl⟩
    | done => exact .inl rfl
    | failed e => exact nomatch hs.symm.trans (runFailed_iff.2 ⟨e, hst⟩)

theorem resolveRun_bad_stage {r : RawTuple} {f : ConfigField} (h : resolveTuple r = .bad f) :
    (s.resolveRun r).stage = configStage f := by
  rw [resolveRun_bad h]
  rfl

/-- Settles O56: the moves within a run, and the stage that RESOLVE and GENERATE leave for each tuple. -/
theorem stageMovesAsSpecified : Obligations.StageMovesAsSpecified := by
  unfold Obligations.StageMovesAsSpecified
  intro i s t hinv h
  refine ⟨stageMove_of_exec hinv h, fun src r hr => ⟨?_, ?_⟩⟩
  · rintro rfl
    obtain rfl := Host.Outcome.next.inj ((exec_resolve hr).symm.trans h)
    exact ⟨fun c hc => by rw [resolveRun_ok hc, State.configure_stage], fun f => resolveRun_bad_stage⟩
  · rintro rfl
    obtain rfl := Host.Outcome.next.inj ((exec_generate hr).symm.trans h)
    refine ⟨fun c hc => ?_, fun f hf => ?_⟩
    · rw [generateRun_ok hc, pipeline_eq, State.finish_stage]
    · rw [generateRun_bad hf, resolveRun_bad_stage hf]

/-- An instruction that leaves another circuit leaves its register without a value (R32). -/
theorem stateReg_of_newCircuit {i : Instr} (h : exec i s = .next t) (hne : t.circuit ≠ s.circuit) :
    t.stateReg = none := by
  cases effect_of_exec h with
  | resolve => exact absurd (s.resolveRun_circuit _) hne
  | generate => exact (s.generateRun_newCircuit _).resolve_left hne
  | answer | setVector | setOut | raise | setReg | observe => exact absurd rfl hne
  | finish => rfl

/-- Settles O41: the start of the run overwrites every generator register, and the rest of it reads the tuple only. -/
theorem runIsFunctionOfTuple : Obligations.RunIsFunctionOfTuple := by
  unfold Obligations.RunIsFunctionOfTuple
  intro s s' t t' r i hi h h'
  obtain rfl | rfl := hi
  · obtain rfl := Host.Outcome.next.inj ((exec_resolve rfl).symm.trans h)
    obtain rfl := Host.Outcome.next.inj ((exec_resolve rfl).symm.trans h')
    cases hr : resolveTuple r with
    | ok c => simp [resolveRun_ok hr]
    | bad f => simp [resolveRun_bad hr]
  · obtain rfl := Host.Outcome.next.inj ((exec_generate rfl).symm.trans h)
    obtain rfl := Host.Outcome.next.inj ((exec_generate rfl).symm.trans h')
    cases hr : resolveTuple r with
    | ok c => simp [generateRun_ok hr, pipeline_eq, State.unrolled]
    | bad f => simp [generateRun_bad hr, resolveRun_bad hr]

/-! ## The missing configuration or circuit -/

theorem withConfig_none (h : s.cfg = none) (k : Config → Answer) : withConfig s k = .refused .noConfig := by
  simp [withConfig, h]

theorem withFull_none (h : s.fullModule = none) (k : Circuit → Answer) : withFull s k = .refused .noFullModule := by
  simp [withFull, h]

theorem withBare_none (h : s.bareLogic = none) (k : Circuit → Answer) : withBare s k = .refused .noBareLogic := by
  simp [withBare, h]

/-- Settles O13: every operation but RESOLVE and GENERATE first asks for its configuration or its circuit. -/
theorem operationsNeedConfigOrCircuit : Obligations.OperationsNeedConfigOrCircuit := by
  unfold Obligations.OperationsNeedConfigOrCircuit
  refine ⟨fun s i hc hcirc hb => ?_, fun s en x h => ?_, fun s x y h => withBare_none h _⟩
  · cases i with
    | resolve | generate => exact nomatch hb
    | cycReset | cycUpdate | cycHold | combEval => exact nomatch hcirc
    | termXor | symStep | unroll | outmap | canon | checkLen | emitBare | emitFull | eval =>
      exact withConfig_none hc _
  · exact ⟨withFull_none h _, withFull_none h _, withFull_none h _, withFull_none h _, withFull_none h _⟩

end Sys2Proof.Machine
end

section
/-! R111 to R115 and R119: the symbolic step and its unrolling are exact against the bit-serial register. The value of
a vector after one symbolic step is one serial step of its value before, and a fold of steps is one of serial steps. -/

namespace Sys2Proof.Machine

variable {c : Config}

/-! ## Numbers with the same bits below a width -/

theorem eq_of_testBit_lt {w a b : Nat} (ha : a < 2 ^ w) (hb : b < 2 ^ w)
    (h : ∀ k, k < w → a.testBit k = b.testBit k) : a = b := by
  rw [← ofBits_testBit ha, ← ofBits_testBit hb, ofBits_congr h]

/-! ## One step -/

theorem serial1_lt (hp : c.poly < 2 ^ c.w) (v : Nat) (b : Bool) : serial1 c v b < 2 ^ c.w := by
  refine Nat.xor_lt_two_pow (Nat.mod_lt _ (Nat.two_pow_pos _)) ?_
  split
  · exact hp
  · exact Nat.two_pow_pos _

/-- The bits of a serial step: the shifted register, and the polynomial where the feedback bit is set (R119). -/
theorem testBit_serial1 (v : Nat) (b : Bool) {k : Nat} (hk : k < c.w) :
    (serial1 c v b).testBit k =
      ((decide (1 ≤ k) && v.testBit (k - 1)) ^^ ((v.testBit (c.w - 1) ^^ b) && c.poly.testBit k)) := by
  have hshift : (2 * v % 2 ^ c.w).testBit k = (decide (1 ≤ k) && v.testBit (k - 1)) := by
    rw [Nat.testBit_mod_two_pow, decide_eq_true hk, Bool.true_and]
    exact Nat.testBit_two_pow_mul (i := 1) (a := v) (j := k)
  rw [serial1, Nat.testBit_xor, hshift]
  cases v.testBit (c.w - 1) ^^ b <;> simp

theorem evalTerm_ite_zero {p : Prop} [Decidable p] (wd : Widths) (t : XorTerm) (x y : Nat) :
    evalTerm wd (if p then t else 0) x y = (decide p && evalTerm wd t x y) := by
  split <;> simp [*]

theorem evalTerm_feedback {wd : Widths} {j : Nat} (hj : j < wd.n) (sv : StateVector) (x y : Nat) :
    evalTerm wd (feedback wd sv j) x y = (evalTerm wd (sv.getD (wd.w - 1) 0) x y ^^ y.testBit j) := by
  rw [feedback, evalTerm_termXor, evalTerm_input hj]

/-- One symbolic step has the value of one serial step (R119). -/
theorem vectorValue_symStep (hp : c.poly < 2 ^ c.w) {j : Nat} (hj : j < c.n) (sv : StateVector) (x y : Nat) :
    vectorValue c.widths (symStep c sv j) x y = serial1 c (vectorValue c.widths sv x y) (y.testBit j) := by
  refine eq_of_testBit_lt (vectorValue_lt _ _ x y) (serial1_lt hp _ _) fun k (hk : k < c.w) => ?_
  have hbit {i : Nat} (hi : i < c.w) : (vectorValue c.widths sv x y).testBit i = evalTerm c.widths (sv.getD i 0) x y :=
    testBit_vectorValue _ _ _ _ hi
  rw [testBit_vectorValue _ _ _ _ hk, getD_symStep c sv j hk, evalTerm_termXor, evalTerm_ite_zero, evalTerm_ite_zero,
    evalTerm_feedback hj, testBit_serial1 _ _ hk, hbit (by omega : k - 1 < c.w), hbit (by omega : c.w - 1 < c.w),
    Config.widths_w, Bool.decide_eq_true, Bool.and_comm (c.poly.testBit k)]

/-! ## The fold of steps -/

theorem vectorValue_unrollFrom (hp : c.poly < 2 ^ c.w) (x y : Nat) {js : List Nat} (hj : ∀ j ∈ js, j < c.n) :
    ∀ sv : StateVector, vectorValue c.widths (unrollFrom c sv js) x y =
      js.foldl (fun v j => serial1 c v (y.testBit j)) (vectorValue c.widths sv x y) := by
  induction js with
  | nil => exact fun _ => rfl
  | cons j js ih =>
    intro sv
    obtain ⟨hj, hjs⟩ := List.forall_mem_cons.1 hj
    exact (ih hjs (symStep c sv j)).trans (by rw [vectorValue_symStep hp hj, List.foldl_cons])

theorem vectorValue_idVector {wd : Widths} {x : Nat} (hx : x < 2 ^ wd.w) (y : Nat) :
    vectorValue wd (idVector wd.w) x y = x := by
  refine eq_of_testBit_lt (vectorValue_lt _ _ x y) hx fun k hk => ?_
  rw [testBit_vectorValue _ _ _ _ hk, getD_idVector hk, evalTerm_state hk]

/-- R119: the unrolled equations are exact. -/
theorem next_eq_serial (hc : c.Valid) {x : Nat} (hx : x < 2 ^ c.w) (y : Nat) : next c x y = serial c x y := by
  obtain ⟨-, hpoly, -⟩ := hc
  calc next c x y
      = (procOrder c.n c.refin).foldl (fun v j => serial1 c v (y.testBit j))
          (vectorValue c.widths (idVector c.w) x y) := vectorValue_unrollFrom hpoly x y (fun _ => mem_procOrder.1) _
    _ = serial c x y := by rw [show vectorValue c.widths (idVector c.w) x y = x from vectorValue_idVector hx y]; rfl

theorem next_lt (c : Config) (x y : Nat) : next c x y < 2 ^ c.w := vectorValue_lt _ _ _ _

theorem testBit_next (x y : Nat) {k : Nat} (hk : k < c.w) :
    (next c x y).testBit k = evalTerm c.widths ((unroll c).getD k 0) x y :=
  testBit_vectorValue _ _ _ _ hk

/-- A configuration with another input word width. -/
theorem valid_withN (hc : c.Valid) {n : Nat} (hn : 1 ≤ n) : { c with n := n }.Valid := by
  obtain ⟨hw, hpoly, -, hinit, hxorout⟩ := hc
  exact ⟨hw, hpoly, hn, hinit, hxorout⟩

/-- A fold of functions that agree below a bound and stay below it. -/
theorem foldl_congr_lt {α : Type} {f g : Nat → α → Nat} {m : Nat} (hf : ∀ v a, f v a < m)
    {l : List α} (h : ∀ v a, a ∈ l → v < m → f v a = g v a) :
    ∀ {v : Nat}, v < m → l.foldl f v = l.foldl g v := by
  induction l with
  | nil => exact fun _ => rfl
  | cons a l ih =>
    intro v hv
    rw [List.foldl_cons, List.foldl_cons, ← h v a List.mem_cons_self hv]
    exact ih (fun u b hb => h u b (List.mem_cons_of_mem _ hb)) (hf v a)

/-- One 1-bit cycle is one serial step. -/
theorem next_oneBit (hc : c.Valid) {v : Nat} (hv : v < 2 ^ c.w) (b : Bool) :
    next { c with n := 1 } v b.toNat = serial1 c v b := by
  have hbit : b.toNat.testBit 0 = b := by cases b <;> rfl
  have horder : procOrder 1 c.refin = [0] := by cases c.refin <;> rfl
  rw [next_eq_serial (valid_withN hc (Nat.le_refl 1)) hv, serial, horder, List.foldl_cons, List.foldl_nil, hbit]
  rfl

/-! ## Linearity -/

theorem vectorValue_xor_words (wd : Widths) (sv : StateVector) (x y x' y' : Nat) :
    vectorValue wd sv (x ^^^ x') (y ^^^ y') = vectorValue wd sv x y ^^^ vectorValue wd sv x' y' := by
  rw [vectorValue, vectorValue, vectorValue, ← ofBits_xor]
  exact ofBits_congr fun k _ => evalTerm_xor_words wd _ x y x' y'

theorem vectorValue_zero_words (wd : Widths) (sv : StateVector) : vectorValue wd sv 0 0 = 0 := by
  refine eq_of_testBit_lt (vectorValue_lt _ _ _ _) (Nat.two_pow_pos _) fun k hk => ?_
  rw [testBit_vectorValue _ _ _ _ hk, evalTerm_zero_words, Nat.zero_testBit]

/-! ## The operations where a configuration is held -/

variable {s : State}

theorem exec_unroll (hc : s.cfg = some c) : exec .unroll s = .next (s.setVector (unroll c) c.n) :=
  withConfig_some hc _

theorem exec_symStep (hc : s.cfg = some c) {src : Src StateVector} {j : Src Nat} {k : Nat}
    (hk : readIndex c s j = some k) : exec (.symStep src j) s =
      .next (s.setVector (symStep c (readVector c s src) k) (posAfter c s.pos)) := by
  simp [exec, execSymStep, hc, hk]

theorem exec_outmap (hc : s.cfg = some c) (src : Src StateVector) :
    exec (.outmap src) s = .next (s.setOut (outmap c (readVector c s src))) :=
  withConfig_some hc _

/-- The held index of SYM_STEP is the next entry of the processing order (R112). -/
theorem readIndex_held (h : s.pos < c.n) :
    readIndex c s .held = some (if c.refin then s.pos else c.n - 1 - s.pos) :=
  getElem?_procOrder c.refin h

theorem readIndex_held_none (h : c.n ≤ s.pos) : readIndex c s .held = none := by
  simp [readIndex, h]

/-! ## The statements -/

/-- Settles O17: the elements of the step, with the feedback written out. -/
theorem symStepIsOneLfsrStep : Obligations.SymStepIsOneLfsrStep := by
  unfold Obligations.SymStepIsOneLfsrStep
  intro s c sv j hc hvalid hsv hj
  obtain ⟨hw, -⟩ := hvalid
  refine ⟨symStep c sv j, exec_symStep hc rfl, symStep_length c sv j, ?_, fun k hk => ?_⟩
  · rw [getD_symStep c sv j hw, if_neg (by omega), termXor, Nat.zero_xor]
    rfl
  · rw [getD_symStep c sv j hk, if_pos (by omega)]
    rfl

/-- Settles O18: the held operands read as the given ones. -/
theorem symStepFollowsProcessingOrder : Obligations.SymStepFollowsProcessingOrder := by
  unfold Obligations.SymStepFollowsProcessingOrder
  intro s c hc
  refine ⟨fun hpos => ?_, fun hpos => ?_⟩
  · rw [exec_symStep hc (readIndex_held hpos), exec_symStep hc (j := .lit _) rfl]
    rfl
  · simp [exec, execSymStep, hc, readIndex_held_none hpos]

/-- A held step consumes the first entry that is left of the processing order. -/
theorem exec_symStep_held (hc : s.cfg = some c) (hpos : s.pos < c.n) :
    ∃ j, (procOrder c.n c.refin).drop s.pos = j :: (procOrder c.n c.refin).drop (s.pos + 1) ∧
      exec (.symStep .held .held) s = .next (s.setVector (symStep c (s.svNow c) j) (s.pos + 1)) := by
  have hlt : s.pos < (procOrder c.n c.refin).length := by rwa [procOrder_length]
  have hnext : posAfter c s.pos = s.pos + 1 := if_pos hpos
  exact ⟨_, List.drop_eq_getElem_cons hlt,
    by rw [← hnext]; exact exec_symStep hc (List.getElem?_eq_getElem hlt)⟩

/-- The held steps that are left are the fold over the rest of the processing order. -/
theorem execAll_symStep (m : Nat) : ∀ {s : State}, s.cfg = some c → s.pos + (m + 1) = c.n →
    execAll (List.replicate (m + 1) (.symStep .held .held)) s =
      .next (s.setVector (unrollFrom c (s.svNow c) ((procOrder c.n c.refin).drop s.pos)) c.n) := by
  induction m with
  | zero =>
    intro s hc hm
    obtain ⟨j, hdrop, hstep⟩ := exec_symStep_held hc (by omega)
    rw [List.replicate_succ, execAll_cons hstep, hdrop, hm, List.drop_eq_nil_of_le (by simp)]
    rfl
  | succ m ih =>
    intro s hc hm
    obtain ⟨j, hdrop, hstep⟩ := exec_symStep_held hc (by omega)
    rw [List.replicate_succ, execAll_cons hstep, hdrop,
      ih (s := s.setVector (symStep c (s.svNow c) j) (s.pos + 1)) hc (by rw [State.setVector_pos]; omega)]
    rfl

/-- Settles O19: UNROLL folds over the whole processing order, which its `N` steps do from position 0. -/
theorem unrollEqualsItsSteps : Obligations.UnrollEqualsItsSteps := by
  unfold Obligations.UnrollEqualsItsSteps
  intro s c hc hn hsv hpos
  obtain ⟨m, hm⟩ := Nat.exists_eq_add_of_le' hn
  have hnow : s.svNow c = idVector c.w := by simp [State.svNow, hsv]
  rw [hm, execAll_symStep m hc (by omega), hnow, hpos, exec_unroll hc]
  rfl

/-- Settles O20: the unrolled equations are exact bit by bit. -/
theorem unrollIsExact : Obligations.UnrollIsExact := by
  unfold Obligations.UnrollIsExact
  intro s c hc hvalid
  refine ⟨unroll c, exec_unroll hc, unroll_length c, fun x y k hx _ hk => ?_⟩
  rw [← testBit_next x y hk, next_eq_serial hvalid hx]

/-- Settles O21: both are one fold over the processing order, cut in two or step by step. -/
theorem unrollingComposes : Obligations.UnrollingComposes := by
  unfold Obligations.UnrollingComposes
  refine ⟨fun c a b h => ?_, fun c x y hc hx _ => ?_⟩
  · rw [unroll, h]
    exact List.foldl_append
  · rw [next_eq_serial hc hx]
    exact foldl_congr_lt (fun v j => serial1_lt hc.2.1 v _) (fun v j _ hv => (next_oneBit hc hv _).symm) hx

/-- Settles O23: every bit of `next` is the value of a term, and that is linear. -/
theorem nextStateIsLinear : Obligations.NextStateIsLinear := by
  unfold Obligations.NextStateIsLinear
  intro c x x' y y'
  exact ⟨vectorValue_xor_words _ _ x y x' y', vectorValue_zero_words _ _⟩

end Sys2Proof.Machine
end

section
/-! R23 to R27, R117, R121, R122, R140 to R144: what the unrolled vector and the output vector hold. -/

namespace Sys2Proof.Machine

variable {s : State} {c : Config}

/-! ## Elements of the held vectors -/

theorem svNow_of_some {v : StateVector} (h : s.sv = some v) : s.svNow c = v := by
  simp [State.svNow, h]

/-- Before the simulation has started, element `k` reads as the singleton of `S_k` (R26, R230). -/
theorem getD_svNow_of_none (h : s.sv = none) {k : Nat} (hk : k < c.w) : (s.svNow c).getD k 0 = 2 ^ k := by
  have hnow : s.svNow c = idVector c.w := by simp [State.svNow, h]
  rw [hnow, getD_idVector hk]

theorem legal_state_iff {wd : Widths} {i : Nat} : (Symbol.state i).legal wd = true ↔ i < wd.w := decide_eq_true_iff

theorem legal_input_iff {wd : Widths} {j : Nat} : (Symbol.input j).legal wd = true ↔ j < wd.n := decide_eq_true_iff

theorem mem_members_packSyms {wd : Widths} {l : SymbolList} (h : l.all (Symbol.legal wd) = true) {m : Symbol} :
    m ∈ members wd (packSyms wd l) ↔ m.legal wd = true ∧ l.count m % 2 = 1 := by
  rw [← canon_eq_members h, mem_canon]

/-- Settles O16: each form of the operand, read by its members. -/
theorem termOperandForms : Obligations.TermOperandForms := by
  unfold Obligations.TermOperandForms
  intro s c
  refine ⟨fun v => ⟨rfl, fun i => ?_, fun j => ?_⟩, fun l m hl => mem_members_packSyms hl, fun v k hv hk => ?_,
    fun k hs hk => ?_⟩
  · simp [mem_members, legal_state_iff]
  · simp [mem_members, legal_input_iff]
  · rw [readTerm, svNow_of_some hv, List.getD_eq_getElem _ _ hk]
  · rw [readTerm, getD_svNow_of_none hs hk, members_two_pow hk]

/-- CANON of a term's own members only sorts them, and they are sorted (R143). The term may have bits outside the
index space: they are no members. -/
theorem canon_members_self (wd : Widths) (t : XorTerm) : canon wd (members wd t) = members wd t := by
  refine List.filter_congr fun m hm => ?_
  rw [Bool.eq_iff_iff, beq_iff_eq, count_odd_iff_mem (nodup_members wd t), mem_members]
  exact and_iff_right (mem_allSymbols.1 hm)

theorem exec_canon_svAt (hc : s.cfg = some c) (k : Nat) :
    exec (.canon (.svAt k)) s = .next (s.answer (.canonTerm (members c.widths ((s.svNow c).getD k 0)))) := by
  have hr : canonResult c s (.svAt k) = some (.canonTerm (members c.widths ((s.svNow c).getD k 0))) := by
    rw [canonResult, canon_members_self]
  exact execCanon_of_cfg hc hr

theorem exec_canon_ovAt (hc : s.cfg = some c) {k : Nat} {o : OutTerm} (ho : readOutAt s k = some o) :
    exec (.canon (.ovAt k)) s = .next (s.answer (.canonOut ⟨members c.widths o.term, o.const⟩)) := by
  refine execCanon_of_cfg hc ?_
  simp [canonResult, ho, canonOut, canon_members_self]

/-- Settles O31: a held element is canonicalized from its members, which are in order already. -/
theorem canonOfHeldElements : Obligations.CanonOfHeldElements := by
  unfold Obligations.CanonOfHeldElements
  intro s c k hc
  refine ⟨fun v hv _ => ?_, fun hs hk => ?_, fun v o hv ho => exec_canon_ovAt hc (readOutAt_of_getElem? hv ho)⟩
  · rw [exec_canon_svAt hc, svNow_of_some hv]
    rfl
  · rw [exec_canon_svAt hc, getD_svNow_of_none hs hk, members_two_pow hk]
    rfl

theorem canonVec_eq_map (wd : Widths) (v : StateVector) : canonVec wd v = v.map (members wd) :=
  List.map_congr_left fun t _ => canon_members_self wd t

theorem canonOutVec_eq_map (wd : Widths) (v : OutVector) :
    canonOutVec wd v = v.map fun o => ⟨members wd o.term, o.const⟩ :=
  List.map_congr_left fun o _ => by rw [canonOut, canon_members_self]

/-- Settles O25: the unrolled vector is legal, so its canonical vector lists the members and packs back to it. -/
theorem unrolledTermsAreCanonicalizable : Obligations.UnrolledTermsAreCanonicalizable := by
  unfold Obligations.UnrolledTermsAreCanonicalizable
  intro c _
  refine ⟨unroll_length c, by simp, fun l hl => ?_, canonVec_eq_map _ _, packVec_canonVec lt_of_mem_unroll⟩
  obtain ⟨t, -, rfl⟩ := List.mem_map.1 hl
  exact ⟨nodup_canon _ _, Bool.and_eq_true_iff.2 ⟨canon_legal _ _, ascending_filter _ _⟩⟩

/-! ## The output map -/

/-- The output map of a vector has the value of `post` of the vector's value (R117). -/
theorem testBit_post_vectorValue (sv : StateVector) (x y : Nat) {j : Nat} (hj : j < c.w) :
    (post c (vectorValue c.widths sv x y)).testBit j =
      evalOut c.widths ((outmap c sv).getD j ⟨0, false⟩) x y := by
  rw [testBit_post c _ hj, testBit_vectorValue _ _ _ _ (outSource_lt hj), getD_outmap c sv hj]
  rfl

theorem outValue_outmap (hc : c.Valid) (sv : StateVector) (x y : Nat) :
    outValue c.widths (outmap c sv) x y = post c (vectorValue c.widths sv x y) := by
  obtain ⟨-, -, -, -, hmask⟩ := hc
  refine eq_of_testBit_lt (ofBits_lt _ _) (post_lt hmask (vectorValue_lt _ _ _ _)) fun j (hj : j < c.w) => ?_
  rw [testBit_outValue _ _ _ _ hj, testBit_post_vectorValue sv x y hj]

/-- Settles O26: the elements of the output map are written out position by position. -/
theorem outmapMapsPositions : Obligations.OutmapMapsPositions := by
  unfold Obligations.OutmapMapsPositions
  intro s c src v hc hsrc
  have hread : readVector c s src = v := by
    obtain rfl | ⟨rfl, hv⟩ := hsrc
    · rfl
    · exact hv
  refine ⟨outmap c v, hread ▸ exec_outmap hc src, outmap_length c v, fun j hj => ?_⟩
  simp [outmap, outSource]

/-- Settles O27: as numbers and bit by bit. -/
theorem outputTermsEqualPostOfNext : Obligations.OutputTermsEqualPostOfNext := by
  unfold Obligations.OutputTermsEqualPostOfNext
  intro c x y hc
  exact ⟨outValue_outmap hc _ x y, fun j hj => (testBit_post_vectorValue _ x y hj).symm⟩

/-! ## The length check -/

theorem exec_checkLen_pass (hc : s.cfg = some c) {sv : Src (List SymbolList)} {ov : Src (List OutList)}
    {cov : List OutList} (hov : readCanonOut c s ov = some cov) (hsv : (readCanonVec c s sv).length = c.w)
    (hlen : cov.length = c.w) : exec (.checkLen sv ov) s = .next (s.answer .unit) := by
  simp [exec, execCheckLen, hc, hov, lengthCheck_none.2 ⟨hsv, hlen⟩]

theorem exec_checkLen_raise (hc : s.cfg = some c) {sv : List SymbolList} {ov : List OutList}
    (h : sv.length ≠ c.w ∨ ov.length ≠ c.w) : exec (.checkLen (.lit sv) (.lit ov)) s =
      raiseInRun s (.internal ⟨16, sv.length, ov.length, c.w⟩) := by
  have herr : lengthCheck c.w sv ov = some ⟨16, sv.length, ov.length, c.w⟩ := if_pos h
  simp [exec, execCheckLen, hc, readCanonOut, readCanonVec, herr]

/-- Settles O32: the check passes on the given vectors. -/
theorem checkLenPassesFullLength : Obligations.CheckLenPassesFullLength := by
  unfold Obligations.CheckLenPassesFullLength
  exact fun s c sv ov hc hsv hov => exec_checkLen_pass hc rfl hsv hov

/-- Settles O33: the error is raised in the stage the run is in. -/
theorem checkLenRaisesOnOtherLength : Obligations.CheckLenRaisesOnOtherLength := by
  unfold Obligations.CheckLenRaisesOnOtherLength
  intro s c sv ov hc h
  rw [exec_checkLen_raise hc h]
  refine ⟨fun hs => ?_, fun hs => ?_⟩
  · simp only [raiseInRun, hs]
    rfl
  · simp only [raiseInRun, hs]

theorem exec_checkLen_held (hc : s.cfg = some c) {v : StateVector} {o : OutVector} (hv : s.sv = some v)
    (ho : s.ov = some o) (hvl : v.length = c.w) (hol : o.length = c.w) :
    exec (.checkLen .held .held) s = .next (s.answer .unit) :=
  exec_checkLen_pass hc (by rw [readCanonOut, ho]; rfl) (by rw [readCanonVec, svNow_of_some hv, canonVec_length, hvl])
    (by rw [canonOutVec_length, hol])

/-- UNROLL and OUTMAP of what it leaves, one after another. -/
theorem execAll_unroll_outmap (hc : s.cfg = some c) (l : List Instr) :
    execAll (.unroll :: .outmap .held :: l) s = execAll l (s.unrolled c) := by
  rw [execAll_cons (exec_unroll hc), execAll_cons (exec_outmap (s := s.setVector (unroll c) c.n) hc .held)]
  rfl

/-- Settles O34: both vectors that UNROLL and OUTMAP leave have `W` elements. -/
theorem lengthCheckNeverFires : Obligations.LengthCheckNeverFires := by
  unfold Obligations.LengthCheckNeverFires
  intro s c hc
  have hcheck : exec (.checkLen .held .held) (s.unrolled c) = .next ((s.unrolled c).answer .unit) :=
    exec_checkLen_held (c := c) hc rfl rfl (unroll_length c) (outmap_length c _)
  refine ⟨(s.unrolled c).answer .unit, ?_, rfl, rfl⟩
  rw [execAll_unroll_outmap hc, execAll_cons hcheck, execAll_nil]

/-! ## Degenerate configurations -/

/-- With the zero polynomial every step shifts the vector up by one position (R121). -/
theorem getD_unrollFrom_of_poly_zero (hp : c.poly = 0) (js : List Nat) : ∀ (sv : StateVector) {k : Nat}, k < c.w →
    (unrollFrom c sv js).getD k 0 = if js.length ≤ k then sv.getD (k - js.length) 0 else 0 := by
  induction js with
  | nil => exact fun sv k _ => by simp [unrollFrom]
  | cons j js ih =>
    intro sv k hk
    have hstep : (unrollFrom c sv (j :: js)) = unrollFrom c (symStep c sv j) js := rfl
    rw [hstep, ih _ hk]
    by_cases h : js.length ≤ k
    · rw [if_pos h, getD_symStep c sv j (by omega), hp, Nat.zero_testBit, if_neg Bool.false_ne_true, termXor,
        Nat.xor_zero]
      simp only [List.length_cons, Nat.sub_sub, Nat.le_sub_iff_add_le' h]
    · rw [if_neg h, if_neg (by rw [List.length_cons]; omega)]

theorem getD_unroll_of_poly_zero (hp : c.poly = 0) {k : Nat} (hk : k < c.w) :
    (unroll c).getD k 0 = if c.n ≤ k then 2 ^ (k - c.n) else 0 := by
  rw [unroll, getD_unrollFrom_of_poly_zero hp _ _ hk, procOrder_length, getD_idVector (by omega)]

/-- A 1-bit register with tap 0 set adds every input Symbol to its term (R121). -/
theorem getD_unrollFrom_parity (hw : c.w = 1) (hp : c.poly = 1) (js : List Nat) : ∀ sv : StateVector,
    (unrollFrom c sv js).getD 0 0 = sv.getD 0 0 ^^^ packSyms c.widths (js.map .input) := by
  induction js with
  | nil => exact fun sv => (Nat.xor_zero _).symm
  | cons j js ih =>
    intro sv
    have hstep : (symStep c sv j).getD 0 0 = sv.getD 0 0 ^^^ packSym c.widths (.input j) := by
      rw [getD_symStep c sv j (by omega), if_neg (by omega), hp, if_pos (by decide), termXor, Nat.zero_xor, feedback,
        Config.widths_w, hw]
      rfl
    calc (unrollFrom c (symStep c sv j) js).getD 0 0
        = (symStep c sv j).getD 0 0 ^^^ packSyms c.widths (js.map .input) := ih _
      _ = sv.getD 0 0 ^^^ packSyms c.widths ((j :: js).map .input) := by
        rw [hstep, Nat.xor_assoc]
        rfl

theorem nodup_procOrder (n : Nat) (r : Bool) : (procOrder n r).Nodup := by
  cases r <;> simp [procOrder, List.nodup_range]

theorem mem_members_unroll_parity (hw : c.w = 1) (hp : c.poly = 1) {m : Symbol} (hm : m.legal c.widths = true) :
    m ∈ members c.widths ((unroll c).getD 0 0) := by
  have hterm : (unroll c).getD 0 0 = packSyms c.widths (.state 0 :: (procOrder c.n c.refin).map .input) := by
    rw [unroll, getD_unrollFrom_parity hw hp, getD_idVector (by omega)]
    rfl
  have hmem (m' : Symbol) :
      m' ∈ Symbol.state 0 :: (procOrder c.n c.refin).map .input ↔ m'.legal c.widths = true := by
    cases m' with
    | state i => simp [legal_state_iff, hw]
    | input j => simp [legal_input_iff, mem_procOrder]
  have hnodup : (Symbol.state 0 :: (procOrder c.n c.refin).map .input).Nodup :=
    List.nodup_cons.2 ⟨by simp, (nodup_procOrder _ _).map fun a b h => Symbol.input.inj h⟩
  rw [hterm, mem_members_packSyms (List.all_eq_true.2 fun m' hm' => (hmem m').1 hm'), count_odd_iff_mem hnodup]
  exact ⟨hm, (hmem m).2 hm⟩

/-- Settles O22: the shift register, the parity, and the shift register of width 1. -/
theorem degenerateConfigurations : Obligations.DegenerateConfigurations := by
  unfold Obligations.DegenerateConfigurations
  refine ⟨fun c _ hp k => getD_unroll_of_poly_zero hp, fun c _ hw hp => ⟨by rw [unroll_length, hw], ?_⟩,
    fun c hc hw hp => ?_⟩
  · exact List.filter_eq_self.2 fun m hm => (mem_members.1 (mem_members_unroll_parity hw hp (mem_allSymbols.1 hm))).2
  · obtain ⟨-, -, hn, -⟩ := hc
    refine vector_ext (by rw [unroll_length, hw]; rfl) fun k hk => ?_
    obtain rfl : k = 0 := by rw [unroll_length] at hk; omega
    rw [getD_unroll_of_poly_zero hp (by omega), if_neg (by omega)]
    rfl

/-! ## Renaming the input Symbols -/

/-- Two terms with the same STATE Symbols, where the second holds `D_j` exactly where the first holds `D_(ρ j)`. -/
def RenamesInputs (wd : Widths) (ρ : Nat → Nat) (t u : XorTerm) : Prop :=
  (∀ i, i < wd.w → t.testBit i = u.testBit i) ∧ ∀ j, j < wd.n → u.testBit (wd.w + j) = t.testBit (wd.w + ρ j)

theorem RenamesInputs.zero (wd : Widths) (ρ : Nat → Nat) : RenamesInputs wd ρ 0 0 := by
  simp [RenamesInputs]

theorem RenamesInputs.termXor {wd : Widths} {ρ : Nat → Nat} {t u t' u' : XorTerm} (h : RenamesInputs wd ρ t u)
    (h' : RenamesInputs wd ρ t' u') : RenamesInputs wd ρ (termXor t t') (termXor u u') := by
  obtain ⟨hs, hi⟩ := h
  obtain ⟨hs', hi'⟩ := h'
  refine ⟨fun i hlt => ?_, fun j hlt => ?_⟩
  · rw [Machine.termXor, Machine.termXor, Nat.testBit_xor, Nat.testBit_xor, hs i hlt, hs' i hlt]
  · rw [Machine.termXor, Machine.termXor, Nat.testBit_xor, Nat.testBit_xor, hi j hlt, hi' j hlt]

theorem RenamesInputs.ite {wd : Widths} {ρ : Nat → Nat} {t u : XorTerm} (h : RenamesInputs wd ρ t u) (p : Prop)
    [Decidable p] : RenamesInputs wd ρ (if p then t else 0) (if p then u else 0) := by
  split
  · exact h
  · exact .zero wd ρ

/-- The renaming takes `D_(ρ j)` to `D_j`, where `ρ` is injective. -/
theorem RenamesInputs.input {wd : Widths} {ρ : Nat → Nat} (hρ : ∀ i j, i < wd.n → j < wd.n → ρ i = ρ j → i = j)
    {j : Nat} (hj : j < wd.n) : RenamesInputs wd ρ (packSym wd (.input (ρ j))) (packSym wd (.input j)) := by
  refine ⟨fun i hi => ?_, fun i hi => ?_⟩
  · rw [testBit_packSym_input, testBit_packSym_input, decide_eq_false (by omega), decide_eq_false (by omega)]
  · rw [testBit_packSym_input, testBit_packSym_input, decide_eq_decide, Nat.add_left_cancel_iff,
      Nat.add_left_cancel_iff]
    exact ⟨congrArg ρ, hρ j i hj hi⟩

/-- Steps over renamed input indices keep two vectors apart by the renaming only. -/
theorem RenamesInputs.unrollFrom {c c' : Config} (hw : c.w = c'.w) (hp : c.poly = c'.poly) (hn : c.n = c'.n)
    {ρ : Nat → Nat} (hρ : ∀ i j, i < c.n → j < c.n → ρ i = ρ j → i = j) {js : List Nat} (hj : ∀ j ∈ js, j < c.n) :
    ∀ {sv sv' : StateVector}, (∀ k, RenamesInputs c.widths ρ (sv.getD k 0) (sv'.getD k 0)) →
      ∀ k, RenamesInputs c.widths ρ ((unrollFrom c sv (js.map ρ)).getD k 0) ((unrollFrom c' sv' js).getD k 0) := by
  induction js with
  | nil => exact fun h => h
  | cons j js ih =>
    intro sv sv' h
    obtain ⟨hj, hjs⟩ := List.forall_mem_cons.1 hj
    refine ih hjs (sv := symStep c sv (ρ j)) (sv' := symStep c' sv' j) fun k => ?_
    have hwd : c'.widths = c.widths := by simp only [Config.widths, hw, hn]
    by_cases hk : k < c.w
    · rw [getD_symStep c sv _ hk, getD_symStep c' sv' j (hw ▸ hk), hwd, ← hp]
      exact ((h _).ite _).termXor ((((h _).termXor (.input hρ hj)).ite _))
    · rw [List.getD_eq_default _ _ (by simpa using hk), List.getD_eq_default _ _ (by simpa [← hw] using hk)]
      exact .zero _ ρ

/-- Reflecting the input reverses the processing order (R112). -/
theorem procOrder_not (n : Nat) (r : Bool) : procOrder n (!r) = (procOrder n r).map (n - 1 - ·) := by
  have hrev : (List.range n).reverse = (List.range n).map (n - 1 - ·) :=
    List.ext_getElem (by simp) fun i hi _ => by simp
  cases r
  · calc List.range n = (List.range n).reverse.reverse := (List.reverse_reverse _).symm
      _ = (List.range n).reverse.map (n - 1 - ·) := by rw [List.map_reverse, ← hrev]
  · exact hrev

theorem procOrder_eq_map {c c' : Config} (hn : c.n = c'.n) {ρ : Nat → Nat}
    (hρ : (c.refin = c'.refin ∧ ρ = id) ∨ (c.refin ≠ c'.refin ∧ ρ = (c.n - 1 - ·))) :
    procOrder c.n c.refin = (procOrder c'.n c'.refin).map ρ := by
  obtain ⟨h, rfl⟩ | ⟨h, rfl⟩ := hρ
  · rw [h, hn, List.map_id]
  · rw [Bool.eq_not_of_ne h, procOrder_not, hn]

/-- Two configurations that differ in reflect-input have equations that differ by the renaming. -/
theorem RenamesInputs.unroll {c c' : Config} (hw : c.w = c'.w) (hp : c.poly = c'.poly) (hn : c.n = c'.n)
    {ρ : Nat → Nat} (hρ : (c.refin = c'.refin ∧ ρ = id) ∨ (c.refin ≠ c'.refin ∧ ρ = (c.n - 1 - ·))) (k : Nat) :
    RenamesInputs c.widths ρ ((unroll c).getD k 0) ((unroll c').getD k 0) := by
  have hinj : ∀ i j, i < c.n → j < c.n → ρ i = ρ j → i = j := by
    obtain ⟨-, rfl⟩ | ⟨-, rfl⟩ := hρ
    · exact fun i j _ _ h => h
    · intro i j hi hj (h : c.n - 1 - i = c.n - 1 - j)
      omega
  rw [Machine.unroll, Machine.unroll, procOrder_eq_map hn hρ]
  refine RenamesInputs.unrollFrom hw hp hn hinj (fun j hj => hn ▸ mem_procOrder.1 hj) (fun k => ?_) k
  by_cases hk : k < c.w
  · rw [getD_idVector hk, getD_idVector (hw ▸ hk)]
    refine ⟨fun _ _ => rfl, fun j _ => ?_⟩
    simp only [Config.widths_w]
    rw [Nat.testBit_two_pow, Nat.testBit_two_pow, decide_eq_false (by omega), decide_eq_false (by omega)]
  · rw [List.getD_eq_default _ _ (by simpa using hk), List.getD_eq_default _ _ (by simpa [← hw] using hk)]
    exact .zero _ ρ

/-- Settles O24: the equations of two such configurations are renamed ones, by the identity or by the reflection. -/
theorem reflectInputRenamesInputs : Obligations.ReflectInputRenamesInputs := by
  unfold Obligations.ReflectInputRenamesInputs
  intro c c' k hw hp hn _
  refine ⟨fun i hi => ?_, fun hf ht j hj => ?_⟩
  · by_cases h : c.refin = c'.refin
    · exact (RenamesInputs.unroll hw hp hn (.inl ⟨h, rfl⟩) k).1 i hi
    · exact (RenamesInputs.unroll hw hp hn (.inr ⟨h, rfl⟩) k).1 i hi
  · exact (RenamesInputs.unroll hw hp hn (.inr ⟨by simp [hf, ht], rfl⟩) k).2 j hj

end Sys2Proof.Machine
end

section
/-! R150 and R154: the decimal and hexadecimal writers. Reading the digits of a written number gives it back. -/

namespace Sys2Proof.Machine

/-! ## Digits -/

theorem digitIn_digitChar {base d : Nat} (hb : base ≤ 16) (h : d < base) :
    digitIn base (Nat.digitChar d) = some d := by
  have hd : d < 16 := by omega
  interval_cases d <;> exact if_pos h

theorem digitsFrom_append (base : Nat) (l m : Text) : ∀ a : Nat,
    digitsFrom base a (l ++ m) = (digitsFrom base a l).bind fun b => digitsFrom base b m := by
  induction l with
  | nil => exact fun _ => rfl
  | cons ch l ih =>
    intro a
    rw [List.cons_append, digitsFrom, digitsFrom]
    cases digitIn base ch with
    | none => rfl
    | some d => exact ih _

theorem digitsFrom_cons {base d : Nat} (hb : base ≤ 16) (h : d < base) (a : Nat) (l : Text) :
    digitsFrom base a (Nat.digitChar d :: l) = digitsFrom base (a * base + d) l := by
  rw [digitsFrom, digitIn_digitChar hb h]

/-! ## Decimal -/

/-- The digits already written stay at the end. -/
theorem decimalFrom_eq_append (fuel : Nat) : ∀ (v : Nat) (acc : Text),
    decimalFrom fuel v acc = decimalFrom fuel v [] ++ acc := by
  induction fuel with
  | zero => exact fun _ _ => rfl
  | succ fuel ih =>
    intro v acc
    rw [decimalFrom, decimalFrom]
    split
    · rfl
    · rw [ih _ (_ :: acc), ih _ [_], List.append_assoc]
      rfl

/-- Enough fuel is enough. -/
theorem decimalFrom_fuel (fuel : Nat) : ∀ {fuel' v : Nat} (acc : Text), v < fuel → v < fuel' →
    decimalFrom fuel v acc = decimalFrom fuel' v acc := by
  induction fuel with
  | zero => exact fun _ h => absurd h (Nat.not_lt_zero _)
  | succ fuel ih =>
    intro fuel' v acc h h'
    obtain ⟨n, rfl⟩ := Nat.exists_eq_add_of_lt h'
    rw [decimalFrom, decimalFrom]
    split
    · rfl
    · exact ih _ (by omega) (by omega)

theorem decimal_of_lt {v : Nat} (h : v < 10) : decimal v = [Nat.digitChar v] := by
  rw [decimal, decimalFrom, if_pos h]

theorem decimal_of_ge {v : Nat} (h : 10 ≤ v) : decimal v = decimal (v / 10) ++ [Nat.digitChar (v % 10)] := by
  rw [decimal, decimalFrom, if_neg (by omega), decimalFrom_eq_append,
    decimalFrom_fuel v (fuel' := v / 10 + 1) [] (by omega) (by omega)]
  rfl

theorem decimal_ne_nil (v : Nat) : decimal v ≠ [] := by
  by_cases h : v < 10
  · simp [decimal_of_lt h]
  · simp [decimal_of_ge (Nat.le_of_not_lt h)]

theorem digitsFrom_decimal (v : Nat) : digitsFrom 10 0 (decimal v) = some v := by
  induction v using Nat.strongRecOn with
  | ind v ih =>
    by_cases h : v < 10
    · rw [decimal_of_lt h, digitsFrom_cons (by omega) h, digitsFrom, Nat.zero_mul, Nat.zero_add]
    · rw [decimal_of_ge (Nat.le_of_not_lt h), digitsFrom_append, ih (v / 10) (by omega), Option.bind_some,
        digitsFrom_cons (by omega) (Nat.mod_lt v (by omega)), digitsFrom, Nat.mul_comm, Nat.div_add_mod]

theorem digitChar_mem {d : Nat} (h : d < 10) : Nat.digitChar d ∈ "0123456789".toList := by
  interval_cases d <;> decide

theorem decimal_digits (v : Nat) : ∀ ch ∈ decimal v, ch ∈ "0123456789".toList := by
  induction v using Nat.strongRecOn with
  | ind v ih =>
    by_cases h : v < 10
    · rw [decimal_of_lt h, List.forall_mem_singleton]
      exact digitChar_mem h
    · rw [decimal_of_ge (Nat.le_of_not_lt h), List.forall_mem_append, List.forall_mem_singleton]
      exact ⟨ih (v / 10) (by omega), digitChar_mem (Nat.mod_lt v (by omega))⟩

/-- Only 0 is written with a leading zero (R150). -/
theorem head?_decimal {v : Nat} (hv : v ≠ 0) : (decimal v).head? ≠ some '0' := by
  induction v using Nat.strongRecOn with
  | ind v ih =>
    by_cases h : v < 10
    · rw [decimal_of_lt h]
      interval_cases v <;> simp_all [Nat.digitChar]
    · rw [decimal_of_ge (Nat.le_of_not_lt h), List.head?_append_of_ne_nil _ (decimal_ne_nil _)]
      exact ih (v / 10) (by omega) (by omega)

/-- A text of decimal digits is read as one: it does not begin with `0x`. -/
theorem parseNumber_of_digits {t : Text} (hne : t ≠ []) (h : ∀ ch ∈ t, ch ∈ "0123456789".toList) :
    parseNumber t = digitsFrom 10 0 t := by
  unfold parseNumber
  split
  · exact absurd rfl hne
  · exact absurd (h 'x' (by simp)) (by decide)
  · exact absurd (h 'x' (by simp)) (by decide)
  · rfl

/-! ## Hexadecimal -/

theorem hexadecimal_succ (k v : Nat) :
    hexadecimal (k + 1) v = Nat.digitChar (v / 16 ^ k % 16) :: hexadecimal k v := by
  simp [hexadecimal, List.range_succ]

theorem digitsFrom_hexadecimal (k v : Nat) : ∀ a : Nat,
    digitsFrom 16 a (hexadecimal k v) = some (a * 16 ^ k + v % 16 ^ k) := by
  induction k with
  | zero =>
    intro a
    simp [hexadecimal, digitsFrom, Nat.mod_one]
  | succ k ih =>
    intro a
    rw [hexadecimal_succ, digitsFrom_cons (Nat.le_refl _) (Nat.mod_lt _ (by omega)), ih, Nat.mod_pow_succ]
    congr 1
    ring

theorem hexadecimal_digits (k v : Nat) : ∀ ch ∈ hexadecimal k v, ch ∈ "0123456789abcdef".toList := by
  intro ch hch
  obtain ⟨i, -, rfl⟩ := List.mem_map.1 hch
  have hd : v / 16 ^ i % 16 < 16 := Nat.mod_lt _ (by omega)
  generalize v / 16 ^ i % 16 = d at hd
  interval_cases d <;> decide

/-- A `W`-bit constant fits its `ceil(W/4)` hexadecimal digits (R154). -/
theorem lt_sixteen_pow {w v : Nat} (h : v < 2 ^ w) : v < 16 ^ ((w + 3) / 4) :=
  calc v < 2 ^ w := h
    _ ≤ 2 ^ (4 * ((w + 3) / 4)) := Nat.pow_le_pow_right (by omega) (by omega)
    _ = 16 ^ ((w + 3) / 4) := Nat.pow_mul 2 4 _

/-- Settles O38: the digits are read back one by one. -/
theorem numbersReadBack : Obligations.NumbersReadBack := by
  unfold Obligations.NumbersReadBack
  refine ⟨fun v => ⟨?_, head?_decimal, decimal_digits v⟩,
    fun w v hv => ⟨by simp [hexadecimal], hexadecimal_digits _ v, ?_⟩⟩
  · rw [parseNumber_of_digits (decimal_ne_nil v) (decimal_digits v), digitsFrom_decimal]
  · rw [digitsFrom_hexadecimal, Nat.zero_mul, Nat.zero_add, Nat.mod_eq_of_lt (lt_sixteen_pow hv)]

end Sys2Proof.Machine
end

section
/-! R151 to R154: the emitted texts, and the Emitter's operations that end a run with them. -/

namespace Sys2Proof.Machine

variable {s : State} {c : Config}

/-! ## Terms and lines -/

theorem joinXor_eq_intercalate : ∀ l : List Text, joinXor l = " ^ ".toList.intercalate l
  | [] => rfl
  | [a] => by simp [joinXor]
  | a :: b :: l => by
    rw [joinXor, joinXor_eq_intercalate (b :: l), List.intercalate_cons_cons]
    simp

/-- A term is the constant 0 where it has no item, and otherwise its items in parentheses (R151). -/
theorem render_eq (m : Mode) (l : SymbolList) (k : Bool) : render m l k =
    if renderItems m l k = [] then "1'b0".toList
    else "(".toList ++ " ^ ".toList.intercalate (renderItems m l k) ++ ")".toList := by
  unfold render
  split
  · rw [if_pos ‹_›]
  · rw [if_neg ‹_›, joinXor_eq_intercalate]

theorem renderItems_noConst (m : Mode) (l : SymbolList) : renderItems m l false = l.map (signalName m) :=
  List.append_nil _

/-- The output terms of a register are its bits, each with the mask's constant (R153). -/
theorem canonOutVec_registerOut (c : Config) : canonOutVec c.widths (registerOut c) =
    (List.range c.w).map fun j => ⟨[.state (outSource c j)], c.xorout.testBit j⟩ := by
  rw [canonOutVec, registerOut, outmap, List.map_map]
  refine List.map_congr_left fun j hj => ?_
  have hsrc := outSource_lt (List.mem_range.1 hj)
  simp only [Function.comp_apply, canonOut, canon_members_self, getD_idVector hsrc, members_two_pow (wd := c.widths) hsrc]

theorem render_singleton (m : Mode) (a : Symbol) (k : Bool) : render m [a] k =
    "(".toList ++ signalName m a ++ (if k then " ^ ".toList ++ "1'b1".toList else []) ++ ")".toList := by
  cases k <;> simp [render, renderItems, joinXor]

/-- The lines of a vector, one per position, ascending. -/
theorem assignLines_eq (m : Mode) (signal : String) (d : OutList) (l : List OutList) : ∀ k : Nat,
    assignLines m signal k l =
      ((List.range l.length).map fun i => assignLine m signal (k + i) (l.getD i d)).flatten := by
  induction l with
  | nil => exact fun _ => rfl
  | cons o l ih =>
    intro k
    rw [assignLines, ih, List.length_cons, List.range_succ_eq_map, List.map_cons, List.map_map, List.flatten_cons]
    simp [Function.comp_def, Nat.add_assoc, Nat.add_comm 1]

theorem assignLines_zero (m : Mode) (signal : String) (d : OutList) {l : List OutList} {n : Nat} (h : l.length = n) :
    assignLines m signal 0 l = ((List.range n).map fun k => assignLine m signal k (l.getD k d)).flatten := by
  rw [assignLines_eq m signal d l 0, h]
  simp only [Nat.zero_add]

theorem assignLines_noConst (m : Mode) (signal : String) {sv : List SymbolList} {n : Nat} (h : sv.length = n) :
    assignLines m signal 0 (noConst sv) =
      ((List.range n).map fun k => assignLine m signal k ⟨sv.getD k [], false⟩).flatten := by
  rw [assignLines_zero m signal ⟨[], false⟩ (by rw [noConst, List.length_map, h])]
  simp only [noConst, List.getD_map]

/-! ## The Emitter's operations -/

theorem exec_emitBare (hc : s.cfg = some c) (hm : c.mode = .bare) {sv : Src (List SymbolList)}
    {ov : Src (List OutList)} {cov : List OutList} (hov : readCanonOut c s ov = some cov) :
    exec (.emitBare sv ov) s =
      finishRun s (bareText (readCanonVec c s sv) cov) (bareCircuit c (readCanonVec c s sv) cov) := by
  simp [exec, execEmitBare, hc, hm, hov]

theorem exec_emitFull (hc : s.cfg = some c) (hm : c.mode = .full) (sv : Src (List SymbolList)) :
    exec (.emitFull sv) s = finishRun s (fullText c (readCanonVec c s sv)) (fullCircuit c (readCanonVec c s sv)) := by
  simp [exec, execEmitFull, hc, hm]

theorem finishRun_of_running (h : s.runFailed = false) (t : Text) (ci : Circuit) :
    finishRun s t ci = .next (s.finish t ci) := by
  simp [finishRun, h]

theorem finishRun_of_failed (h : s.runFailed = true) (t : Text) (ci : Circuit) :
    finishRun s t ci = .refused .runEnded := by
  simp [finishRun, h]

/-- Settles O37: the mode is checked before the run. -/
theorem emitterRefusals : Obligations.EmitterRefusals := by
  unfold Obligations.EmitterRefusals
  intro s c sv ov hc
  refine ⟨fun hm => ?_, fun hm => ?_, fun hs hm => ?_, fun hs hm => ?_⟩
  · simp [exec, execEmitBare, hc, hm]
  · simp [exec, execEmitFull, hc, hm]
  · rw [exec_emitBare hc hm rfl, finishRun_of_failed hs]
  · rw [exec_emitFull hc hm, finishRun_of_failed hs]

/-- Settles O35: the text is the lines of the two vectors, whose terms are written item by item. -/
theorem emitBareWritesItsLines : Obligations.EmitBareWritesItsLines := by
  unfold Obligations.EmitBareWritesItsLines
  intro ln name items term s c sv ov hc hm hs hsv hov
  have hname : signalName .bare = name := by
    funext m
    cases m <;> rfl
  have hterm (l : SymbolList) (k : Bool) : render .bare l k = term l k := by
    rw [render_eq, renderItems, hname]
  refine ⟨bareText sv ov, (exec_emitBare hc hm rfl).trans (finishRun_of_running hs _ _), ?_⟩
  rw [bareText, assignLines_noConst _ _ hsv, assignLines_zero _ _ ⟨[], false⟩ hov]
  simp only [assignLine, hterm]
  rfl

/-- Settles O36: the text is that of R153 line by line; an output line renders the singleton of its register bit. -/
theorem emitFullWritesTheModule : Obligations.EmitFullWritesTheModule := by
  unfold Obligations.EmitFullWritesTheModule
  intro ln name term bus s c sv hc _ hm hs hsv
  have hname : signalName .full = name := by
    funext m
    cases m <;> rfl
  have hterm (l : SymbolList) : render .full l false = term l := by
    rw [render_eq, renderItems_noConst, hname]
    simp only [List.map_eq_nil_iff, term]
  have hout : assignLines .full "crc_out" 0 (canonOutVec c.widths (registerOut c)) =
      ((List.range c.w).map fun j => assignLine .full "crc_out" j
        ⟨[.state (outSource c j)], c.xorout.testBit j⟩).flatten := by
    rw [canonOutVec_registerOut, assignLines_zero _ _ ⟨[], false⟩ (n := c.w) (by simp)]
    refine congrArg List.flatten (List.map_congr_left fun j hj => ?_)
    rw [getD_map_range, if_pos (List.mem_range.1 hj)]
  refine ⟨fullText c sv, (exec_emitFull hc hm _).trans (finishRun_of_running hs _ _), ?_⟩
  rw [fullText, assignLines_noConst _ _ hsv, hout]
  simp only [assignLine, hterm, render_singleton, hname]
  rfl

end Sys2Proof.Machine
end

section
/-! R155: GENERATE is the operations of its run, one after another. -/

namespace Sys2Proof.Machine

variable {s : State} {c : Config}

/-! ## The Emitter's operation of a mode -/

/-- The operation of the Emitter that emits in a mode (R152, R153). -/
def emitterOf (sv : Src (List SymbolList)) (ov : Src (List OutList)) : Mode → Instr
  | .bare => .emitBare sv ov
  | .full => .emitFull sv

theorem exec_emitterOf (hc : s.cfg = some c) (hs : s.runFailed = false) {sv : Src (List SymbolList)}
    {ov : Src (List OutList)} {cov : List OutList} (hov : readCanonOut c s ov = some cov) :
    exec (emitterOf sv ov c.mode) s =
      .next (s.finish (emitText c (readCanonVec c s sv) cov) (emitCircuit c (readCanonVec c s sv) cov)) := by
  cases hm : c.mode with
  | bare =>
    simp only [emitterOf, exec_emitBare hc hm hov, finishRun_of_running hs, emitText, emitCircuit, hm]
  | full =>
    simp only [emitterOf, exec_emitFull hc hm, finishRun_of_running hs, emitText, emitCircuit, hm]

/-- Settles O39: the run of a legal tuple ends with its text and circuit, and the Emitter gives that text of the
members that the canonical vectors list. -/
theorem generateEmitsTheCircuit : Obligations.GenerateEmitsTheCircuit := by
  unfold Obligations.GenerateEmitsTheCircuit
  intro s c src hc hsrc
  have hok : resolveTuple (rawOf c) = .ok c := resolveTuple_of_valid hc (.inl rfl)
  refine ⟨textOf c, ?_, ?_, fun u hu hrun => ?_⟩
  · rw [exec_generate (readRaw_eq hsrc), generateRun_ok hok, pipeline_eq]
    rfl
  · unfold textOf emitText
    cases c.mode <;> rfl
  · have hemit := exec_emitterOf hu hrun (sv := .lit ((unroll c).map (members c.widths)))
      (ov := .lit ((outmap c (unroll c)).map fun o => ⟨members c.widths o.term, o.const⟩)) rfl
    refine ⟨_, ?_, Eq.trans ?_ hemit⟩
    · rw [State.finish_text, textOf, canonVec_eq_map, canonOutVec_eq_map]
      rfl
    · cases c.mode <;> rfl

/-! ## The program of the run -/

/-- The state with another result of the generator's last operation. -/
def State.setResult (s : State) (r : Option Result) : State := { s with result := r }

/-- CANONs, each of which can be read, leave the state as it was but for the result (R140). -/
theorem execAll_canon {l : List CanonSrc} : ∀ {s : State}, s.cfg = some c →
    (∀ x ∈ l, (canonResult c s x).isSome) → ∃ r, execAll (l.map .canon) s = .next (s.setResult r) := by
  induction l with
  | nil => exact fun {s} _ _ => ⟨s.result, rfl⟩
  | cons x l ih =>
    intro s hc hl
    obtain ⟨hx, hl⟩ := List.forall_mem_cons.1 hl
    obtain ⟨a, ha⟩ := Option.isSome_iff_exists.1 hx
    have hread (y : CanonSrc) : canonResult c (s.answer a) y = canonResult c s y := by cases y <;> rfl
    obtain ⟨r, hr⟩ := ih (s := s.answer a) hc (fun y hy => hread y ▸ hl y hy)
    have hstep : exec (.canon x) s = .next (s.answer a) := execCanon_of_cfg hc ha
    exact ⟨r, (execAll_cons hstep).trans hr⟩

/-- The operands of the CANONs in the program of a run: every element of the two held vectors. -/
def canonOperands (w : Nat) : List CanonSrc :=
  (List.range w).map .svAt ++ (List.range w).map .ovAt

theorem pipelineProgram_eq (r : RawTuple) (c : Config) :
    pipelineProgram r c = .resolve (.lit r) :: .unroll :: .outmap .held ::
      ((canonOperands c.w).map .canon ++ [.checkLen .held .held, emitterOf .held .held c.mode]) := by
  unfold pipelineProgram canonOperands emitterOf
  cases c.mode <;> simp [Function.comp_def]

theorem isSome_canonResult_unrolled (s : State) {x : CanonSrc} (hx : x ∈ canonOperands c.w) :
    (canonResult c (s.unrolled c) x).isSome := by
  obtain hx | hx := List.mem_append.1 hx
  · obtain ⟨k, -, rfl⟩ := List.mem_map.1 hx
    rfl
  · obtain ⟨j, -, rfl⟩ := List.mem_map.1 hx
    rfl

/-- The program after RESOLVE, under the configuration that it wrote. -/
theorem execAll_afterResolve (hc : s.cfg = some c) (hs : s.runFailed = false) :
    execAll (.unroll :: .outmap .held ::
      ((canonOperands c.w).map .canon ++ [.checkLen .held .held, emitterOf .held .held c.mode])) s =
      .next (s.pipeline c) := by
  obtain ⟨x, hcanon⟩ := execAll_canon (s := s.unrolled c) hc fun _ => isSome_canonResult_unrolled s
  have hcheck : exec (.checkLen .held .held) ((s.unrolled c).setResult x) = .next ((s.unrolled c).answer .unit) :=
    exec_checkLen_held (c := c) hc rfl rfl (unroll_length c) (outmap_length c _)
  have hemit : exec (emitterOf .held .held c.mode) ((s.unrolled c).answer .unit) = .next (s.pipeline c) := by
    rw [pipeline_eq, ← emitCircuit_canonVec]
    exact exec_emitterOf (s := (s.unrolled c).answer .unit) hc hs rfl
  rw [execAll_unroll_outmap hc, execAll_append hcanon, execAll_cons hcheck, execAll_cons hemit, execAll_nil]

/-- Settles O40: the program's operations run through the states of the run. -/
theorem generateEqualsItsOperations : Obligations.GenerateEqualsItsOperations := by
  unfold Obligations.GenerateEqualsItsOperations
  refine fun s r => ⟨fun c hc => ?_, fun f hf => ?_⟩
  · have hresolve : exec (.resolve (.lit r)) s = .next ((s.startRun r).configure c) :=
      (exec_resolve rfl).trans (by rw [resolveRun_ok hc])
    rw [pipelineProgram_eq, execAll_cons hresolve, execAll_afterResolve rfl rfl, exec_generate rfl, generateRun_ok hc]
  · rw [exec_generate rfl, exec_resolve rfl, generateRun_bad hf]

end Sys2Proof.Machine
end

section
/-! R170 to R178: the generated circuit of a configuration, from one edge to a whole message. -/

namespace Sys2Proof.Machine

variable {s : State} {c : Config}

theorem fullModule_circuitOf (h : s.circuit = some (circuitOf c)) (hm : c.mode = .full) :
    s.fullModule = some (circuitOf c) :=
  fullModule_iff.2 ⟨h, hm⟩

theorem bareLogic_circuitOf (h : s.circuit = some (circuitOf c)) (hm : c.mode = .bare) :
    s.bareLogic = some (circuitOf c) :=
  bareLogic_iff.2 ⟨h, hm⟩

theorem circuitOf_out_bare (hm : c.mode = .bare) : (circuitOf c).out = outmap c (unroll c) := by
  simp only [circuitOf, hm]

theorem exec_cycUpdate {ci : Circuit} (h : s.fullModule = some ci) (data : Nat) :
    exec (.cycUpdate data) s = .next (s.setReg (regAfter ci s.stateReg data)) :=
  withFull_some h _

/-- A register that holds no value keeps holding none (R32). -/
theorem exec_cycUpdate_of_none {ci : Circuit} (h : s.fullModule = some ci) (hv : s.stateReg = none) (data : Nat) :
    exec (.cycUpdate data) s = .next s := by
  have hreg : regAfter ci s.stateReg data = s.stateReg := by rw [hv]; rfl
  rw [exec_cycUpdate h, hreg, State.setReg_self]

/-- Settles O43: the register moves by `next`, which is the bit-serial reference. -/
theorem cycUpdateAbsorbsWord : Obligations.CycUpdateAbsorbsWord := by
  unfold Obligations.CycUpdateAbsorbsWord
  intro s c data hci hc hm _
  have hfull := fullModule_circuitOf hci hm
  refine ⟨fun v hv hlt => ⟨?_, next_eq_serial hc hlt data⟩, fun hnone => exec_cycUpdate_of_none hfull hnone data⟩
  rw [exec_cycUpdate hfull, hv]
  rfl

/-- Settles O44: the new value's bits are the values of the equations. -/
theorem updateEvaluatesEveryEquation : Obligations.UpdateEvaluatesEveryEquation := by
  unfold Obligations.UpdateEvaluatesEveryEquation
  intro s ci v data h hv
  refine ⟨vectorValue ci.cfg.widths ci.next v data, ?_, vectorValue_lt _ _ _ _,
    fun k hk => testBit_vectorValue _ _ _ _ hk⟩
  rw [exec_cycUpdate h, hv]
  rfl

/-! ## Before the first reset -/

theorem readStateReg_of_none {ci : Circuit} (h : s.fullModule = some ci) (hv : s.stateReg = none) :
    readStateReg s = .fault .readBeforeReset := by
  simp [readStateReg, h, hv]

/-- An edge without a reset changes nothing while the register holds no value (R32). -/
theorem exec_edgeInstr_of_none {ci : Circuit} (h : s.fullModule = some ci) (hv : s.stateReg = none) (e : Edge) :
    exec (edgeInstr e) s = .next s := by
  cases e with
  | update w => exact exec_cycUpdate_of_none h hv w
  | hold w => exact exec_cycHold h w

/-- Settles O46: the edges change nothing, and only an emission changes the circuit. -/
theorem noValueBeforeFirstReset : Obligations.NoValueBeforeFirstReset := by
  unfold Obligations.NoValueBeforeFirstReset
  refine ⟨fun s ci l h hv => ?_, fun i s t => stateReg_of_newCircuit⟩
  have hcrc : s.crcOut = none := by rw [crcOut_of h, hv]; rfl
  refine ⟨s, execAll_eq_self fun i hi => ?_, hv, hcrc, readStateReg_of_none h hv, readCrcOut_of_none h hcrc⟩
  obtain ⟨e, -, rfl⟩ := List.mem_map.1 hi
  exact exec_edgeInstr_of_none h hv e

/-! ## The bare-logic block -/

theorem exec_combEval_circuitOf (h : s.circuit = some (circuitOf c)) (hc : c.Valid) (hm : c.mode = .bare) (x y : Nat) :
    exec (.combEval x y) s = .next (s.observe (.bare (next c x y) (post c (next c x y)))) := by
  have hout : outValue c.widths (circuitOf c).out x y = post c (next c x y) := by
    rw [circuitOf_out_bare hm, outValue_outmap hc]
    rfl
  rw [← hout]
  exact withBare_some (bareLogic_circuitOf h hm) _

/-- Settles O51: the outputs of the block have the values of `next` and of `post` of it. -/
theorem combEvalComputesNextAndPost : Obligations.CombEvalComputesNextAndPost := by
  unfold Obligations.CombEvalComputesNextAndPost
  exact fun s c x y h hc hm => exec_combEval_circuitOf h hc hm x y

/-- Settles O52: `next` and `post` do not depend on the mode. -/
theorem bareLogicRunsOneWordAhead : Obligations.BareLogicRunsOneWordAhead := by
  unfold Obligations.BareLogicRunsOneWordAhead
  intro s t u c v data hc hs ht hv hu
  have hfull := fullModule_circuitOf ht rfl
  obtain rfl := Host.Outcome.next.inj ((exec_cycUpdate hfull data).symm.trans hu)
  refine ⟨next c v data, post c (next c v data), ?_, ?_, exec_combEval_circuitOf hs hc rfl v data⟩
  · rw [State.setReg_stateReg, hv]
    rfl
  · rw [crcOut_of (by rwa [State.setReg_fullModule]), State.setReg_stateReg, hv]
    rfl

/-! ## The message law -/

/-- A pending `CYC` word with `N`-bit data runs its instruction, in a failed run of the generator too. -/
theorem step_cycWord {ci : Circuit} (h : s.fullModule = some ci) {rst en : Bool} {data : Nat}
    (hdata : data < 2 ^ ci.cfg.n) {l : List HostInput} (hp : s.pending = .op (cycWord rst en data) :: l) :
    step s = exec (cycInstr rst en data) (s.setPending l) := by
  have hw : s.widthsFor .cyc = some ci.cfg.widths := by simp [State.widthsFor, h]
  exact step_run hp hw (decode_cycWord hdata rst en {}) (by simp [State.neverReached, cycWord])
    ((wellFormed_cycInstr _ rst en data).trans (decide_eq_true hdata))

/-- The register value after an edge. -/
def edgeNext (c : Config) (v : Nat) : Edge → Nat
  | .update w => next c v w
  | .hold _ => v

theorem foldl_edgeNext (c : Config) (l : List Edge) : ∀ v : Nat,
    l.foldl (edgeNext c) v = (absorbed l).foldl (next c) v := by
  induction l with
  | nil => exact fun _ => rfl
  | cons e l ih =>
    intro v
    cases e <;> exact ih _

theorem step_edge (h : s.fullModule = some (circuitOf c)) {v : Nat} (hv : s.stateReg = some v) {e : Edge}
    (he : edgeData e < 2 ^ c.n) {l : List HostInput} (hp : s.pending = edgeInput e :: l) :
    step s = .next ((s.setPending l).setReg (some (edgeNext c v e))) := by
  cases e with
  | update w =>
    rw [step_cycWord h he hp]
    refine (exec_cycUpdate (s := s.setPending l) h w).trans ?_
    rw [State.setPending_stateReg, hv]
    rfl
  | hold w =>
    rw [step_cycWord h he hp]
    refine (exec_cycHold (s := s.setPending l) h w).trans ?_
    rw [edgeNext, ← hv]
    rfl

theorem run_edges (l : List Edge) (hl : ∀ e ∈ l, edgeData e < 2 ^ c.n) : ∀ {s : State} {v : Nat},
    s.fullModule = some (circuitOf c) → s.stateReg = some v → s.pending = l.map edgeInput →
    Host.Core.run Sys2Proof.core l.length s =
      .next ((s.setPending []).setReg (some (l.foldl (edgeNext c) v))) := by
  induction l with
  | nil =>
    intro s v _ hv hp
    have hself : (s.setPending s.pending).setReg s.stateReg = s := rfl
    rw [hv, hp] at hself
    exact congrArg Host.Outcome.next hself.symm
  | cons e l ih =>
    intro s v h hv hp
    obtain ⟨he, hl⟩ := List.forall_mem_cons.1 hl
    rw [List.length_cons, run_succ (step_edge h hv he hp),
      ih hl (s := (s.setPending (l.map edgeInput)).setReg (some (edgeNext c v e))) h rfl rfl]
    rfl

/-- Settles O49: the reset gives the register `INIT`, and every edge moves it by its word or keeps it. -/
theorem messageLaw : Obligations.MessageLaw := by
  unfold Obligations.MessageLaw
  intro s c l hci hm _ hl hp
  have hfull := fullModule_circuitOf hci hm
  have hreset : step s = .next ((s.setPending (l.map edgeInput)).setReg (some c.init)) :=
    (step_cycWord hfull (Nat.two_pow_pos _) hp).trans
      (exec_cycReset (s := s.setPending (l.map edgeInput)) hfull false 0)
  refine ⟨(s.setPending []).setReg (some ((absorbed l).foldl (next c) c.init)), ?_, rfl, rfl,
    crcOut_of (s := (s.setPending []).setReg _) hfull⟩
  rw [run_succ hreset, run_edges l hl (s := (s.setPending (l.map edgeInput)).setReg (some c.init)) hfull rfl rfl,
    foldl_edgeNext]
  rfl

end Sys2Proof.Machine
end

section
/-! R54: byte lanes. A packed word has its bytes' bits in the order in which the circuit absorbs them. -/

namespace Sys2Proof.Machine

variable {c : Config}

/-- The serial steps over the bits of `d` at the positions `js` (R119). -/
def serialOver (c : Config) (js : List Nat) (v d : Nat) : Nat :=
  js.foldl (fun v j => serial1 c v (d.testBit j)) v

theorem serial_eq_serialOver (c : Config) (v d : Nat) : serial c v d = serialOver c (procOrder c.n c.refin) v d := rfl

theorem serialOver_append (js ks : List Nat) (v d : Nat) :
    serialOver c (js ++ ks) v d = serialOver c ks (serialOver c js v d) d :=
  List.foldl_append

/-- The lowest byte of a packed word. -/
theorem serialOver_lowByte {b : Nat} (hb : b < 256) (r v : Nat) {js : List Nat} (hj : ∀ j ∈ js, j < 8) :
    serialOver c js v (256 * r + b) = serialOver c js v b := by
  refine List.foldl_ext _ _ _ fun v j hmem => ?_
  rw [show 256 = 2 ^ 8 from rfl, Nat.testBit_two_pow_mul_add r hb, if_pos (hj j hmem)]

/-- The bytes above the lowest one. -/
theorem serialOver_highBytes {b : Nat} (hb : b < 256) (r v : Nat) (js : List Nat) :
    serialOver c (js.map (8 + ·)) v (256 * r + b) = serialOver c js v r := by
  rw [serialOver, List.foldl_map]
  refine List.foldl_ext _ _ _ fun v j _ => ?_
  rw [show 256 = 2 ^ 8 from rfl, Nat.testBit_two_pow_mul_add r hb, if_neg (by omega), Nat.add_sub_cancel_left]

theorem range_bytes_succ (m : Nat) : List.range (8 * (m + 1)) = List.range 8 ++ (List.range (8 * m)).map (8 + ·) := by
  rw [Nat.mul_succ, Nat.add_comm, List.range_add]

/-- Little-endian lanes, absorbed from the lowest bit up. -/
theorem serialOver_packLittle (bs : List Nat) (hb : ∀ b ∈ bs, b < 256) : ∀ v : Nat,
    serialOver c (List.range (8 * bs.length)) v (packLittle bs) = bs.foldl (serialOver c (List.range 8)) v := by
  induction bs with
  | nil => exact fun _ => rfl
  | cons b bs ih =>
    intro v
    obtain ⟨hb, hbs⟩ := List.forall_mem_cons.1 hb
    rw [List.length_cons, range_bytes_succ, packLittle, Nat.add_comm b, serialOver_append,
      serialOver_lowByte hb _ _ (fun _ => List.mem_range.1), serialOver_highBytes hb, ih hbs, List.foldl_cons]

theorem packBig_append (bs : List Nat) (b : Nat) : packBig (bs ++ [b]) = 256 * packBig bs + b := by
  rw [packBig, List.foldl_append, Nat.mul_comm]
  rfl

/-- Big-endian lanes, absorbed from the highest bit down. -/
theorem serialOver_packBig (bs : List Nat) (hb : ∀ b ∈ bs, b < 256) (v : Nat) :
    serialOver c (List.range (8 * bs.length)).reverse v (packBig bs) =
      bs.foldl (serialOver c (List.range 8).reverse) v := by
  induction bs using List.reverseRecOn with
  | nil => rfl
  | append_singleton bs b ih =>
    obtain ⟨hbs, hb⟩ := List.forall_mem_append.1 hb
    have hb := List.forall_mem_singleton.1 hb
    rw [List.length_append, List.length_singleton, range_bytes_succ, packBig_append, List.reverse_append,
      ← List.map_reverse, serialOver_append, serialOver_highBytes hb,
      serialOver_lowByte hb _ _ (fun _ hj => List.mem_range.1 (List.mem_reverse.1 hj)), ih hbs, List.foldl_append]
    rfl

/-- Both packings, each with the processing order that goes with it. -/
theorem serial_packed {bs : List Nat} (hb : ∀ b ∈ bs, b < 256) (hn : c.n = 8 * bs.length) (v : Nat) :
    serial c v ((if c.refin then packLittle else packBig) bs) = bs.foldl (serial { c with n := 8 }) v := by
  have hbyte : serial { c with n := 8 } = serialOver c (procOrder 8 c.refin) := rfl
  rw [serial_eq_serialOver, hn, hbyte]
  cases c.refin with
  | false => exact serialOver_packBig bs hb v
  | true => exact serialOver_packLittle bs hb v

/-- Settles O50: `next` is the bit-serial reference, in the wide circuit and in the 8-bit one. -/
theorem byteLanesAgreeWithByteStream : Obligations.ByteLanesAgreeWithByteStream := by
  unfold Obligations.ByteLanesAgreeWithByteStream
  intro c bs x hc hx _ hn hb
  rw [next_eq_serial hc hx, serial_packed hb hn]
  exact (foldl_congr_lt (next_lt { c with n := 8 })
    (fun v b _ hv => next_eq_serial (valid_withN hc (by omega)) hv b) hx).symm

end Sys2Proof.Machine
end

section
/-! R54, R57, R80 and R81: the assembler's `message` and `bytes`. A word that does not fit is refused, and a string is
cut into whole words or refused. -/

namespace Sys2Proof.Machine

variable {c : Config}

/-! ## `message` -/

theorem asmCyc_of_lt {v : Nat} (h : v < 2 ^ c.n) (rst en : Bool) :
    asmCyc c rst en v = .ok [.op (cycWord rst en v)] :=
  if_pos h

theorem asmCyc_of_ge {v : Nat} (h : 2 ^ c.n ≤ v) (rst en : Bool) : asmCyc c rst en v = .bad (.valueTooWide v) :=
  if_neg (Nat.not_lt.2 h)

theorem asmMessage_of_lt {l : List Nat} (h : ∀ v ∈ l, v < 2 ^ c.n) :
    asmMessage c l = .ok (l.map fun v => .op (cycWord false true v)) := by
  induction l with
  | nil => rfl
  | cons v l ih =>
    obtain ⟨hv, hl⟩ := List.forall_mem_cons.1 h
    rw [asmMessage, asmCyc_of_lt hv, ih hl]
    rfl

/-- The first word that does not fit refuses the message. -/
theorem asmMessage_of_ge {a b : List Nat} {v : Nat} (ha : ∀ x ∈ a, x < 2 ^ c.n) (hv : 2 ^ c.n ≤ v) :
    asmMessage c (a ++ v :: b) = .bad (.valueTooWide v) := by
  induction a with
  | nil => rw [List.nil_append, asmMessage, asmCyc_of_ge hv]
  | cons x a ih =>
    obtain ⟨hx, ha⟩ := List.forall_mem_cons.1 ha
    rw [List.cons_append, asmMessage, asmCyc_of_lt hx, ih ha]

/-- Settles O59: word by word. -/
theorem messagesAssembleToUpdates : Obligations.MessagesAssembleToUpdates := by
  unfold Obligations.MessagesAssembleToUpdates
  refine fun c l => ⟨asmMessage_of_lt, fun v hv => asmCyc_of_ge hv false true, ?_⟩
  rintro a b v rfl ha hv
  exact asmMessage_of_ge ha hv

/-! ## `bytes` -/

/-- The pieces of a list whose length is a multiple of `k`, and none of any other list. -/
theorem pieces_eq {k : Nat} (hk : 0 < k) (fuel : Nat) : ∀ bs : List Nat, bs.length ≤ fuel →
    pieces k fuel bs =
      if bs.length % k = 0 then some ((List.range (bs.length / k)).map fun i => (bs.drop (i * k)).take k)
      else none := by
  induction fuel with
  | zero =>
    intro bs h
    obtain rfl := List.length_eq_zero_iff.1 (Nat.le_zero.1 h)
    simp [pieces]
  | succ fuel ih =>
    intro bs h
    cases bs with
    | nil => simp [pieces]
    | cons b bs =>
      generalize hl : b :: bs = l at h
      have hpieces : pieces k (fuel + 1) l =
          if l.length < k then none else (pieces k fuel (l.drop k)).map fun t => l.take k :: t := by
        rw [← hl, pieces]
      have hpos : 0 < l.length := by rw [← hl, List.length_cons]; omega
      rw [hpieces]
      by_cases hlt : l.length < k
      · rw [if_pos hlt, if_neg (by rw [Nat.mod_eq_of_lt hlt]; omega)]
      · have hle : k ≤ l.length := Nat.le_of_not_lt hlt
        rw [if_neg hlt, ih _ (by rw [List.length_drop]; omega), List.length_drop, ← Nat.mod_eq_sub_mod hle,
          Nat.div_eq_sub_div hk hle]
        split
        · simp [List.range_succ_eq_map, Function.comp_def, Nat.succ_mul, Nat.add_comm]
        · rfl

theorem packLittle_lt {l : List Nat} (h : ∀ b ∈ l, b < 256) : packLittle l < 256 ^ l.length := by
  induction l with
  | nil => exact Nat.one_pos
  | cons b l ih =>
    obtain ⟨hb, hl⟩ := List.forall_mem_cons.1 h
    have hrest := ih hl
    rw [packLittle, List.length_cons, Nat.pow_succ]
    omega

theorem packBig_lt {l : List Nat} (h : ∀ b ∈ l, b < 256) : packBig l < 256 ^ l.length := by
  induction l using List.reverseRecOn with
  | nil => exact Nat.one_pos
  | append_singleton l b ih =>
    obtain ⟨hl, hb⟩ := List.forall_mem_append.1 h
    have hb := List.forall_mem_singleton.1 hb
    have hrest := ih hl
    rw [packBig_append, List.length_append, List.length_singleton, Nat.pow_succ]
    omega

/-- A packed word of at most `N / 8` bytes fits in `N` bits. -/
theorem packed_lt (hn : c.n % 8 = 0) {l : List Nat} (h : ∀ b ∈ l, b < 256) (hlen : l.length ≤ c.n / 8) :
    (if c.refin then packLittle else packBig) l < 2 ^ c.n := by
  have hword : 256 ^ l.length ≤ 2 ^ c.n :=
    calc 256 ^ l.length = 2 ^ (8 * l.length) := (Nat.pow_mul 2 8 _).symm
      _ ≤ 2 ^ c.n := Nat.pow_le_pow_right (by omega) (by omega)
  refine Nat.lt_of_lt_of_le ?_ hword
  split
  · exact packLittle_lt h
  · exact packBig_lt h

/-- The words of a string of bytes, for an `N` that is a multiple of 8. -/
theorem packBytes_eq (hn : 1 ≤ c.n) (h8 : c.n % 8 = 0) {bs : List Nat} (hb : ∀ b ∈ bs, b < 256) :
    packBytes c bs =
      if bs.length % (c.n / 8) = 0 then
        .ok (((List.range (bs.length / (c.n / 8))).map fun i => (bs.drop (i * (c.n / 8))).take (c.n / 8)).map
          (if c.refin then packLittle else packBig))
      else .error .notWholeWords := by
  have hfind : bs.find? (fun b => decide (256 ≤ b)) = none :=
    List.find?_eq_none.2 fun b hmem => by simpa using hb b hmem
  rw [packBytes, if_neg (by omega), hfind, pieces_eq (by omega) _ bs (Nat.le_refl _)]
  by_cases h : bs.length % (c.n / 8) = 0
  · rw [if_pos h, if_pos h]
  · rw [if_neg h, if_neg h]

/-- Settles O60: the string is cut into pieces of `N / 8` bytes, and a packed piece fits its word. -/
theorem partialWordsAreRefused : Obligations.PartialWordsAreRefused := by
  unfold Obligations.PartialWordsAreRefused
  intro c bs hn h8 hb
  refine ⟨fun h => ?_, fun h => ?_⟩
  · calc assemble (some c) (.bytes bs) = asmBytes c bs := rfl
      _ = .bad .notWholeWords := by rw [asmBytes, packBytes_eq hn h8 hb, if_neg h]
  · have hfits : ∀ v ∈ ((List.range (bs.length / (c.n / 8))).map fun i =>
        (bs.drop (i * (c.n / 8))).take (c.n / 8)).map (if c.refin then packLittle else packBig), v < 2 ^ c.n := by
      intro v hv
      obtain ⟨l, hl, rfl⟩ := List.mem_map.1 hv
      obtain ⟨i, -, rfl⟩ := List.mem_map.1 hl
      exact packed_lt h8 (fun b hmem => hb b (List.mem_of_mem_drop (List.mem_of_mem_take hmem)))
        (List.length_take_le _ _)
    calc assemble (some c) (.bytes bs) = asmBytes c bs := rfl
      _ = _ := by
        rw [asmBytes, packBytes_eq hn h8 hb, if_pos h]
        exact (asmMessage_of_lt hfits).trans (by rw [List.map_map, List.map_map]; rfl)

end Sys2Proof.Machine
end
